-- ==== Sys2Proof/Word.lean ====
section
/-! DEFINITION. The widths and fixed sizes of the machine (spec/00_scope.md R4, R7): every register
is a bit vector of its own width, so a written value is masked to that width by its type. -/

namespace Sys2Proof

/-- A byte: a general register, a timer, a memory cell, a framebuffer byte (R20). -/
abbrev Byte := BitVec 8

/-- A 16-bit value: `pc`, `I`, a stack entry, an instruction word (R20, R70). -/
abbrev Word := BitVec 16

/-- The 12-bit address immediate `nnn` (R71). -/
abbrev Addr := BitVec 12

/-- The index of a general register, 0 to 15 (R21, R74). -/
abbrev RegIdx := Fin 16

/-- `MEM_SIZE` (R4, R50). -/
abbrev memSize : Nat := 4096

/-- `LOAD_ADDR`: where the image goes and where the first fetch is (R4, R281, R283). -/
abbrev loadAddr : Nat := 0x200

/-- `STACK_DEPTH` (R4, D19; log entry 14). -/
abbrev stackDepth : Nat := 16

/-- The size of the framebuffer in bytes (R4, R32). -/
abbrev fbBytes : Nat := 256

/-- `NPIX`: the pixel count of the 64 x 32 framebuffer (R4, C1). -/
abbrev pixelCount : Nat := 2048

end Sys2Proof
end

