-- ==== Sys2Proof/Syntax.lean ====
section
/-! DEFINITION. The 18 decoded instructions (R82, one constructor per row of
spec/opcode_table.json), and the assembler form each is written in (R90, R91). -/

namespace Sys2Proof

/-- A decoded instruction: an opcode tag and the operand fields its format uses (R72, R75). The
operands carry their width in their type, and a register operand is an index, never a value (R74). -/
inductive Instr where
  /-- `cls` (R230) -/
  | cls
  /-- `ret` (R182) -/
  | ret
  /-- `jmp nnn` (R176) -/
  | jmp (nnn : Addr)
  /-- `call nnn` (R179) -/
  | call (nnn : Addr)
  /-- `se vX nn` (R170) -/
  | seImm (x : RegIdx) (nn : Byte)
  /-- `se vX vY` (R173) -/
  | seReg (x y : RegIdx)
  /-- `mov vX nn` (R120) -/
  | movImm (x : RegIdx) (nn : Byte)
  /-- `add vX nn` (R124) -/
  | addImm (x : RegIdx) (nn : Byte)
  /-- `mov vX vY` (R122) -/
  | movReg (x y : RegIdx)
  /-- `and vX vY` (R130) -/
  | andReg (x y : RegIdx)
  /-- `add vX vY` (R127) -/
  | addReg (x y : RegIdx)
  /-- `mov i nnn` (R150) -/
  | movI (nnn : Addr)
  /-- `rnd vX nn` (R132) -/
  | rnd (x : RegIdx) (nn : Byte)
  /-- `drw vX vY n` (R235) -/
  | drw (x y : RegIdx) (n : BitVec 4)
  /-- `mov vX dt` (R200) -/
  | getDt (x : RegIdx)
  /-- `mov dt vX` (R203) -/
  | setDt (x : RegIdx)
  /-- `add i vX` (R153) -/
  | addI (x : RegIdx)
  /-- `ldm vX` (R156) -/
  | ldm (x : RegIdx)
  deriving DecidableEq, Repr

/-- The mnemonics of R91. -/
inductive Mnemonic where
  | cls | ret | jmp | call | se | mov | add | and | rnd | drw | ldm
  deriving DecidableEq, Repr

/-- An operand as a programmer writes it, before any range check (R90, R91): a register number, an
immediate, or one of the literals `i` and `dt`. -/
inductive AsmOperand where
  | reg (k : Nat)
  | imm (v : Nat)
  | i
  | dt
  deriving DecidableEq, Repr

/-- An assembler line, unchecked (R90, R91). -/
structure AsmLine where
  mnemonic : Mnemonic
  operands : List AsmOperand
  deriving DecidableEq, Repr

/-- The assembler form of an instruction (R91). -/
def Instr.asm : Instr → AsmLine
  | .cls => ⟨.cls, []⟩
  | .ret => ⟨.ret, []⟩
  | .jmp a => ⟨.jmp, [.imm a.toNat]⟩
  | .call a => ⟨.call, [.imm a.toNat]⟩
  | .seImm x nn => ⟨.se, [.reg x, .imm nn.toNat]⟩
  | .seReg x y => ⟨.se, [.reg x, .reg y]⟩
  | .movImm x nn => ⟨.mov, [.reg x, .imm nn.toNat]⟩
  | .addImm x nn => ⟨.add, [.reg x, .imm nn.toNat]⟩
  | .movReg x y => ⟨.mov, [.reg x, .reg y]⟩
  | .andReg x y => ⟨.and, [.reg x, .reg y]⟩
  | .addReg x y => ⟨.add, [.reg x, .reg y]⟩
  | .movI a => ⟨.mov, [.i, .imm a.toNat]⟩
  | .rnd x nn => ⟨.rnd, [.reg x, .imm nn.toNat]⟩
  | .drw x y n => ⟨.drw, [.reg x, .reg y, .imm n.toNat]⟩
  | .getDt x => ⟨.mov, [.reg x, .dt]⟩
  | .setDt x => ⟨.mov, [.dt, .reg x]⟩
  | .addI x => ⟨.add, [.i, .reg x]⟩
  | .ldm x => ⟨.ldm, [.reg x]⟩

end Sys2Proof
end

