-- ==== Sys2Proof/WellFormed.lean ====
section
/-! DEFINITION. When an assembler line spells an instruction (R91): its operands have one of the
mnemonic's forms and each lies in its range. A line out of range is refused, never truncated. -/

namespace Sys2Proof

/-- What a form of R91 asks of one operand. -/
inductive OperandKind where
  /-- a register, 0 to 15 -/
  | reg
  /-- `n`, 0x0 to 0xF -/
  | imm4
  /-- `nn`, 0x00 to 0xFF -/
  | imm8
  /-- `nnn`, 0x000 to 0xFFF -/
  | imm12
  /-- the literal `i` -/
  | i
  /-- the literal `dt` -/
  | dt
  deriving DecidableEq, Repr

/-- The range checks of R91 (register numbers: R74). -/
def OperandKind.admits : OperandKind → AsmOperand → Bool
  | .reg, .reg k => decide (k ≤ 0xF)
  | .imm4, .imm v => decide (v ≤ 0xF)
  | .imm8, .imm v => decide (v ≤ 0xFF)
  | .imm12, .imm v => decide (v ≤ 0xFFF)
  | .i, .i => true
  | .dt, .dt => true
  | _, _ => false

/-- The operand forms of each mnemonic (the table of R91). -/
def Mnemonic.forms : Mnemonic → List (List OperandKind)
  | .cls => [[]]
  | .ret => [[]]
  | .jmp => [[.imm12]]
  | .call => [[.imm12]]
  | .se => [[.reg, .imm8], [.reg, .reg]]
  | .mov => [[.reg, .imm8], [.reg, .reg], [.i, .imm12], [.reg, .dt], [.dt, .reg]]
  | .add => [[.reg, .imm8], [.reg, .reg], [.i, .reg]]
  | .and => [[.reg, .reg]]
  | .rnd => [[.reg, .imm8]]
  | .drw => [[.reg, .reg, .imm4]]
  | .ldm => [[.reg]]

/-- Operands against one form: as many as it has, each admitted. -/
def formAdmits : List OperandKind → List AsmOperand → Bool
  | [], [] => true
  | k :: ks, o :: os => k.admits o && formAdmits ks os
  | _, _ => false

/-- A line an assembler accepts (R91). -/
def AsmLine.wellFormed (l : AsmLine) : Bool :=
  l.mnemonic.forms.any fun f => formAdmits f l.operands

/-- The instruction a line spells, or nothing where the assembler refuses it (R91). -/
def AsmLine.assemble (l : AsmLine) : Option Instr :=
  if l.wellFormed then
    match l.mnemonic, l.operands with
    | .cls, [] => some .cls
    | .ret, [] => some .ret
    | .jmp, [.imm a] => some (.jmp (BitVec.ofNat 12 a))
    | .call, [.imm a] => some (.call (BitVec.ofNat 12 a))
    | .se, [.reg x, .imm nn] => some (.seImm (Fin.ofNat 16 x) (BitVec.ofNat 8 nn))
    | .se, [.reg x, .reg y] => some (.seReg (Fin.ofNat 16 x) (Fin.ofNat 16 y))
    | .mov, [.reg x, .imm nn] => some (.movImm (Fin.ofNat 16 x) (BitVec.ofNat 8 nn))
    | .mov, [.reg x, .reg y] => some (.movReg (Fin.ofNat 16 x) (Fin.ofNat 16 y))
    | .mov, [.i, .imm a] => some (.movI (BitVec.ofNat 12 a))
    | .mov, [.reg x, .dt] => some (.getDt (Fin.ofNat 16 x))
    | .mov, [.dt, .reg x] => some (.setDt (Fin.ofNat 16 x))
    | .add, [.reg x, .imm nn] => some (.addImm (Fin.ofNat 16 x) (BitVec.ofNat 8 nn))
    | .add, [.reg x, .reg y] => some (.addReg (Fin.ofNat 16 x) (Fin.ofNat 16 y))
    | .add, [.i, .reg x] => some (.addI (Fin.ofNat 16 x))
    | .and, [.reg x, .reg y] => some (.andReg (Fin.ofNat 16 x) (Fin.ofNat 16 y))
    | .rnd, [.reg x, .imm nn] => some (.rnd (Fin.ofNat 16 x) (BitVec.ofNat 8 nn))
    | .drw, [.reg x, .reg y, .imm n] =>
        some (.drw (Fin.ofNat 16 x) (Fin.ofNat 16 y) (BitVec.ofNat 4 n))
    | .ldm, [.reg x] => some (.ldm (Fin.ofNat 16 x))
    | _, _ => none
  else none

/-- An instruction whose assembler form is in range; the operand types make every one so
(Laws/Encoding.lean). -/
def Instr.wellFormed (i : Instr) : Bool := i.asm.wellFormed

end Sys2Proof
end

