-- ==== Sys2Proof/Decode.lean ====
section
/-! DEFINITION. The decoder (R75, R76), total on every word, with the explicit result `invalid`
(R80); the encoder (R83); the opcode map as rows of match and mask (R82). The selecting values are
the spec's, which takes them from general knowledge (D1; log entry 1). -/

namespace Sys2Proof

/-- The result of decoding (R75, R105): one of the 18 instructions, or `invalid`, with no operands
(R80, D26). -/
inductive Decoded where
  | instr (i : Instr)
  | invalid
  deriving DecidableEq, Repr

/-- `op = w[15:12]` (R71). -/
def fieldOp (w : Word) : BitVec 4 := w.extractLsb' 12 4

/-- `x = w[11:8]`, the first register index (R71). -/
def fieldX (w : Word) : RegIdx := (w.extractLsb' 8 4).toFin

/-- `y = w[7:4]`, the second register index (R71). -/
def fieldY (w : Word) : RegIdx := (w.extractLsb' 4 4).toFin

/-- `n = w[3:0]` (R71). -/
def fieldN (w : Word) : BitVec 4 := w.extractLsb' 0 4

/-- `nn = w[7:0]` (R71, R73). -/
def fieldNN (w : Word) : Byte := w.extractLsb' 0 8

/-- `nnn = w[11:0]` (R71, R73). -/
def fieldNNN (w : Word) : Addr := w.extractLsb' 0 12

/-- The decoder's algorithm (R76). Primary cases 0x4, 0x9, 0xB and 0xE, and every sub-opcode not
named here, are invalid. -/
def decode (w : Word) : Decoded :=
  match fieldOp w with
  | 0x0#4 =>
      if w = 0x00E0#16 then .instr .cls
      else if w = 0x00EE#16 then .instr .ret
      else .invalid
  | 0x1#4 => .instr (.jmp (fieldNNN w))
  | 0x2#4 => .instr (.call (fieldNNN w))
  | 0x3#4 => .instr (.seImm (fieldX w) (fieldNN w))
  | 0x5#4 => if fieldN w = 0x0#4 then .instr (.seReg (fieldX w) (fieldY w)) else .invalid
  | 0x6#4 => .instr (.movImm (fieldX w) (fieldNN w))
  | 0x7#4 => .instr (.addImm (fieldX w) (fieldNN w))
  | 0x8#4 =>
      if fieldN w = 0x0#4 then .instr (.movReg (fieldX w) (fieldY w))
      else if fieldN w = 0x2#4 then .instr (.andReg (fieldX w) (fieldY w))
      else if fieldN w = 0x4#4 then .instr (.addReg (fieldX w) (fieldY w))
      else .invalid
  | 0xA#4 => .instr (.movI (fieldNNN w))
  | 0xC#4 => .instr (.rnd (fieldX w) (fieldNN w))
  | 0xD#4 => .instr (.drw (fieldX w) (fieldY w) (fieldN w))
  | 0xF#4 =>
      if fieldNN w = 0x07#8 then .instr (.getDt (fieldX w))
      else if fieldNN w = 0x15#8 then .instr (.setDt (fieldX w))
      else if fieldNN w = 0x1E#8 then .instr (.addI (fieldX w))
      else if fieldNN w = 0x65#8 then .instr (.ldm (fieldX w))
      else .invalid
  | _ => .invalid

/-- Two bytes as a word, high byte first (R55, R103). -/
def wordOfBytes (hi lo : Byte) : Word := hi ++ lo

/-- The decoder on the two bytes of an instruction as they stand in memory (R55, R70, R76). -/
def decodeBytes (hi lo : Byte) : Decoded := decode (wordOfBytes hi lo)

/-- The high byte of a word: it stands at the lower address (R55). -/
def highByte (w : Word) : Byte := w.extractLsb' 8 8

/-- The low byte of a word: it stands at the higher address (R55). -/
def lowByte (w : Word) : Byte := w.extractLsb' 0 8

/-- A register index as the four bits of its field (R71). -/
def regBits (x : RegIdx) : BitVec 4 := BitVec.ofFin x

/-- The encoder (R83), each row spelled as its pattern of R82. -/
def encode : Instr → Word
  | .cls => 0x00E0#16
  | .ret => 0x00EE#16
  | .jmp a => 0x1#4 ++ a
  | .call a => 0x2#4 ++ a
  | .seImm x nn => 0x3#4 ++ regBits x ++ nn
  | .seReg x y => 0x5#4 ++ regBits x ++ regBits y ++ 0x0#4
  | .movImm x nn => 0x6#4 ++ regBits x ++ nn
  | .addImm x nn => 0x7#4 ++ regBits x ++ nn
  | .movReg x y => 0x8#4 ++ regBits x ++ regBits y ++ 0x0#4
  | .andReg x y => 0x8#4 ++ regBits x ++ regBits y ++ 0x2#4
  | .addReg x y => 0x8#4 ++ regBits x ++ regBits y ++ 0x4#4
  | .movI a => 0xA#4 ++ a
  | .rnd x nn => 0xC#4 ++ regBits x ++ nn
  | .drw x y n => 0xD#4 ++ regBits x ++ regBits y ++ n
  | .getDt x => 0xF#4 ++ regBits x ++ 0x07#8
  | .setDt x => 0xF#4 ++ regBits x ++ 0x15#8
  | .addI x => 0xF#4 ++ regBits x ++ 0x1E#8
  | .ldm x => 0xF#4 ++ regBits x ++ 0x65#8

/-- A row of the opcode map: a word `w` is the row's when `w & mask = pattern` (R82). -/
structure OpcodeRow where
  pattern : Word
  mask : Word
  deriving DecidableEq, Repr

/-- The row of each instruction in the opcode map (R82). -/
def Instr.row : Instr → OpcodeRow
  | .cls => ⟨0x00E0#16, 0xFFFF#16⟩
  | .ret => ⟨0x00EE#16, 0xFFFF#16⟩
  | .jmp _ => ⟨0x1000#16, 0xF000#16⟩
  | .call _ => ⟨0x2000#16, 0xF000#16⟩
  | .seImm _ _ => ⟨0x3000#16, 0xF000#16⟩
  | .seReg _ _ => ⟨0x5000#16, 0xF00F#16⟩
  | .movImm _ _ => ⟨0x6000#16, 0xF000#16⟩
  | .addImm _ _ => ⟨0x7000#16, 0xF000#16⟩
  | .movReg _ _ => ⟨0x8000#16, 0xF00F#16⟩
  | .andReg _ _ => ⟨0x8002#16, 0xF00F#16⟩
  | .addReg _ _ => ⟨0x8004#16, 0xF00F#16⟩
  | .movI _ => ⟨0xA000#16, 0xF000#16⟩
  | .rnd _ _ => ⟨0xC000#16, 0xF000#16⟩
  | .drw _ _ _ => ⟨0xD000#16, 0xF000#16⟩
  | .getDt _ => ⟨0xF007#16, 0xF0FF#16⟩
  | .setDt _ => ⟨0xF015#16, 0xF0FF#16⟩
  | .addI _ => ⟨0xF01E#16, 0xF0FF#16⟩
  | .ldm _ => ⟨0xF065#16, 0xF0FF#16⟩

/-- The opcode map (R82): its 18 rows, in the table's order. -/
def opcodeMap : List OpcodeRow :=
  [Instr.cls.row, Instr.ret.row, (Instr.jmp 0).row, (Instr.call 0).row, (Instr.seImm 0 0).row,
   (Instr.seReg 0 0).row, (Instr.movImm 0 0).row, (Instr.addImm 0 0).row, (Instr.movReg 0 0).row,
   (Instr.andReg 0 0).row, (Instr.addReg 0 0).row, (Instr.movI 0).row, (Instr.rnd 0 0).row,
   (Instr.drw 0 0 0).row, (Instr.getDt 0).row, (Instr.setDt 0).row, (Instr.addI 0).row,
   (Instr.ldm 0).row]

/-- The bits of an instruction as spec/opcode_table.json numbers them (bit 0 the least significant of
the word, the bits from `nbits` up zero), as a word. -/
def tableWord (nbits w : Nat) : Word := BitVec.ofNat 16 (w % 2 ^ nbits)

/-- What the decoder reads from an instruction whose bits are `w`, laid out in memory order: the high
byte first (R55). -/
def decodeTableWord (nbits w : Nat) : Option Instr :=
  match decodeBytes (highByte (tableWord nbits w)) (lowByte (tableWord nbits w)) with
  | .instr i => some i
  | .invalid => none

end Sys2Proof
end

