-- ==== Sys2Proof/Config.lean ====
section
/-! DEFINITION. What is fixed at startup and stays fixed for the run (R4, R36, R271), and the free
values. The two constants without a body are open: Lean can prove no value of them, so a claim about
the machine is a claim for every configuration and for every sequence of random bytes. -/

namespace Sys2Proof

/-- `P_ADD_VF` (R128, D4, C4): which write of `add vf vY` is last. -/
inductive AddVf where
  /-- the carry stays in VF -/
  | carryWins
  /-- the masked sum stays in VF -/
  | sumWins
  deriving DecidableEq, Repr, Inhabited

/-- `P_FB_TAIL` (R233, D5): what framebuffer byte index 256 is. -/
inductive FbTail where
  /-- it reads 0 and a write to it is lost -/
  | drop
  /-- it is byte 0 -/
  | wrap
  deriving DecidableEq, Repr, Inhabited

/-- The open configuration parameters of R4; `IPF` and `FPS` are positive integers (D22). -/
structure Config where
  /-- `IPF`, instructions per frame -/
  ipf : ℕ+
  /-- `FPS`, frames per second -/
  fps : ℕ+
  /-- `P_ADD_VF` -/
  addVf : AddVf
  /-- `P_FB_TAIL` -/
  fbTail : FbTail
  deriving DecidableEq, Repr, Inhabited

/-- The configuration this machine was started with: OPEN (D4, D5, D22; log entries 3, 4, 5).
DESIGN CHOICE: a constant with no body; safe, nothing can be proved of its value. -/
opaque Config.startup : Config

/-- The bytes of the random source, by how many were drawn before: FREE VALUES (R133, D13; log
entry 6). DESIGN CHOICE: a constant with no body; safe for claims about one run. -/
opaque Config.rand8 : Nat → Byte

end Sys2Proof
end

