-- ==== Sys2Proof/Machine/State.lean ====
section
/-! DEFINITION. The architectural state (spec/10_state.md R20), the reasons a step can stop, and the
state after reset (spec/70_reset_and_hazards.md R280). -/

namespace Sys2Proof.Machine

/-- Memory `M` (R50): (address, byte) pairs in the one canonical form of `Memory.wf`. An address that
is not listed reads 0, the spec's content at reset (R52, R280). -/
abbrev Memory := List Host.Cell

/-- The framebuffer bytes `FB[0..255]` (R32). -/
abbrev Framebuffer := Vector Byte fbBytes

/-- What the fault records (R260): the address the word was fetched from, and the word. -/
structure FaultInfo where
  fetchAddr : Word
  word : Word
  deriving DecidableEq, Repr

/-- Whether the block may step (R35). -/
inductive Status where
  | running
  | faulted (info : FaultInfo)
  | stopped
  deriving DecidableEq, Repr

/-- The state of the machine: the record of R20, and `draws`, the model's own count of the bytes the
random source has given (log entry 6). -/
structure State where
  /-- `M` (R50) -/
  mem : Memory
  /-- `V[0]` to `V[15]` (R21) -/
  v : Vector Byte 16
  /-- `I`, the index register (R24) -/
  i : Word
  /-- the program counter (R25) -/
  pc : Word
  /-- `SP`, the slot the next call writes (R27) -/
  sp : Fin stackDepth
  /-- `STACK` (R28) -/
  stack : Vector Word stackDepth
  /-- `DT`, the delay timer (R30) -/
  dt : Byte
  /-- `ST`, the sound timer (R31) -/
  st : Byte
  /-- `FB` (R32) -/
  fb : Framebuffer
  /-- instructions executed since reset (R34) -/
  cycles : Nat
  /-- `status` (R35) -/
  status : Status
  /-- bytes drawn from the random source; MODEL'S OWN field (R133; log entry 6) -/
  draws : Nat
  deriving DecidableEq, Repr

/-- Why no step is enabled (R101). -/
inductive Fault where
  /-- Raised by `step` in a `faulted` state: the fault is final, no step is enabled (R101, R266).
  Safe: the hardware runs nothing either (D14). -/
  | stepAfterFault (info : FaultInfo)
  /-- Raised by `step` in a `stopped` state (R101, R270). Safe: the hardware runs nothing either. -/
  | stepAfterStop
  deriving DecidableEq, Repr

/-- What the model gives no meaning. -/
inductive Refusal where
  /-- An instruction with no meaning yet: raised by an arm of `exec` only; no arm raises it now.
  Safe. -/
  | notModelled (mnemonic : String)
  /-- Raised by `launch` for an image of more than 3584 bytes (R285, D12). Safe. -/
  | imageTooLong (len : Nat)
  deriving DecidableEq, Repr

/-- The state after reset with no image, which is a legal launch (R280, R284): everything 0 but `pc`,
the load address (R281), and `status`, `Running`. `draws` starts at 0 (DESIGN CHOICE, log entry 6). -/
def State.reset : State where
  mem := []
  v := Vector.replicate 16 0
  i := 0
  pc := 0x0200#16
  sp := 0
  stack := Vector.replicate stackDepth 0
  dt := 0
  st := 0
  fb := Vector.replicate fbBytes 0
  cycles := 0
  status := .running
  draws := 0

end Sys2Proof.Machine
end

