-- ==== Sys2Proof/Machine/Ops.lean ====
section
/-! DEFINITION. The named operations over memory, registers, the call stack and the framebuffer, and
the one exception of the block (spec/10_state.md, 20_memory.md, 60_exceptions.md). -/

namespace Sys2Proof.Machine

/-- What a meaning, `exec` and `step` answer. -/
abbrev Result := Host.Outcome State Fault Refusal

/-! ### Memory -/

/-- The canonical form from address `lo` on: addresses strictly rising and below 4096 (R50), and no
byte listed that equals what an unlisted address reads as. -/
def Memory.wfFrom (lo : Nat) : Memory → Bool
  | [] => true
  | (k, b) :: m => decide (lo ≤ k) && decide (k < memSize) && !(b == 0) && Memory.wfFrom (k + 1) m

/-- The canonical form of memory. -/
def Memory.wf (m : Memory) : Bool := Memory.wfFrom 0 m

/-- `M[a]`; an unlisted address reads 0 (R52). -/
def Memory.read : Memory → Nat → Byte
  | [], _ => 0
  | (k, b) :: m, a => if k = a then b else Memory.read m a

/-- A cell before the cells of higher addresses; a byte that equals what an unlisted address reads as
is not listed. -/
def Memory.putCell (a : Nat) (b : Byte) (m : Memory) : Memory := if b = 0 then m else (a, b) :: m

/-- `M[a] <- b`, keeping the canonical form. Only the loader writes memory (R59). -/
def Memory.write : Memory → Nat → Byte → Memory
  | [], a, b => Memory.putCell a b []
  | (k, c) :: m, a, b =>
      if a < k then Memory.putCell a b ((k, c) :: m)
      else if a = k then Memory.putCell a b m
      else (k, c) :: Memory.write m a b

/-- The address reduction: modulo 4096, at any value, never an error (R53). -/
def maskAddr (a : Nat) : Nat := a % memSize

/-- `MemRead(a, 1)`, the one memory access of the block (R54): total, no side effect. -/
def State.memRead (s : State) (a : Nat) : Byte := s.mem.read (maskAddr a)

/-! ### Registers -/

/-- `V[r]` (R8, R21). -/
def State.getV (s : State) (r : RegIdx) : Byte := s.v[r.val]

/-- `V[r] <- b` (R8, R21); no register is hard-wired. -/
def State.setV (s : State) (r : RegIdx) (b : Byte) : State := { s with v := s.v.set r.val b }

/-- The flag register VF, an ordinary register too (R22, D27). -/
abbrev flagReg : RegIdx := 15

/-- `I <- a` (R24). -/
def State.setI (s : State) (a : Word) : State := { s with i := a }

/-- `pc <- a` (R25). -/
def State.setPc (s : State) (a : Word) : State := { s with pc := a }

/-- `DT <- b` (R30). -/
def State.setDt (s : State) (b : Byte) : State := { s with dt := b }

/-- Two bytes further, modulo 65536: the advance of every fetch (R102), and the extra advance of a
taken skip (R170, R173). -/
def State.advancePc (s : State) : State := s.setPc (s.pc + 2)

/-! ### Call stack -/

/-- `STACK[k]` (R28). -/
def State.getSlot (s : State) (k : Fin stackDepth) : Word := s.stack[k.val]

/-- The push of `call nnn`: the slot at SP, then SP one up modulo the depth; overflow wraps
silently (R27, R179, R180). -/
def State.pushPc (s : State) : State :=
  { s with stack := s.stack.set s.sp.val s.pc, sp := s.sp + 1 }

/-- The pop of `ret`: SP one down modulo the depth, then `pc` from that slot, which keeps its value;
underflow wraps silently (R27, R182, R183). -/
def State.popPc (s : State) : State :=
  { s with sp := s.sp - 1, pc := s.getSlot (s.sp - 1) }

/-! ### Framebuffer -/

/-- `FBGet(j)` for a byte index 0 to 256; index 256 is what `P_FB_TAIL` says (R233). -/
def Framebuffer.get (tail : FbTail) (fb : Framebuffer) (j : Nat) : Byte :=
  if h : j < fbBytes then fb[j]
  else match tail with
    | .wrap => fb[0]
    | .drop => 0

/-- `FBPut(j, b)` for a byte index 0 to 256; index 256 is what `P_FB_TAIL` says (R233). -/
def Framebuffer.put (tail : FbTail) (fb : Framebuffer) (j : Nat) (b : Byte) : Framebuffer :=
  if h : j < fbBytes then fb.set j b
  else match tail with
    | .wrap => fb.set 0 b
    | .drop => fb

/-- The framebuffer with every byte 0 (R230). -/
def Framebuffer.clear : Framebuffer := Vector.replicate fbBytes 0

/-- The framebuffer replaced; the rest of the state as it was. -/
def State.setFb (s : State) (fb : Framebuffer) : State := { s with fb := fb }

/-! ### Random source -/

/-- One byte taken from the random source (R133): the count of draws goes up by one. -/
def State.countDraw (s : State) : State := { s with draws := s.draws + 1 }

/-! ### The exception -/

/-- `raise InvalidOpcode(fetch_addr, word)` (R106, R260), on the state after the fetch, whose `pc` has
already advanced: only `status` changes. There is no handler, no saved state and no return: the
faulted state is final (R265, R266). -/
def State.raiseInvalidOpcode (s : State) (fetchAddr word : Word) : State :=
  { s with status := .faulted ⟨fetchAddr, word⟩ }

/-- The numeric code of a fault: `InvalidOpcode` is 1; a stop is no fault and has no code (R261). -/
def Status.faultCode : Status → Option Nat
  | .faulted _ => some 1
  | .running => none
  | .stopped => none

end Sys2Proof.Machine
end

