-- ==== Sys2Proof/Machine/Operands.lean ====
section
/-! DEFINITION. The addressing modes of the block (spec/42_index_memory.md R159) and the fetched word
(spec/40_cycle.md R103). -/

namespace Sys2Proof.Machine

/-- Index plus offset: the byte at `(I + k) & 0xFFF`, `k` the register number or sprite row (R159). -/
def State.indexByte (s : State) (k : Nat) : Byte := s.memRead (s.i.toNat + k)

/-- Absolute 12-bit: `nnn` zero-extended to 16 bits (R73, R159). -/
def absoluteAddr (nnn : Addr) : Word := nnn.setWidth 16

/-- The big-endian word at `a` and `a + 1`, each byte address masked on its own (R58, R103). -/
def State.wordAt (s : State) (a : Word) : Word :=
  wordOfBytes (s.memRead a.toNat) (s.memRead (a.toNat + 1))

/-- Program counter mode: the word a step fetches (R103, R159). -/
def State.fetchWord (s : State) : Word := s.wordAt s.pc

end Sys2Proof.Machine
end

