-- ==== Sys2Proof/Machine/Timers.lean ====
section
/-! DEFINITION. The timer instructions and the timer tick (spec/44_timers.md). -/

namespace Sys2Proof.Machine

/-- `mov vX dt` (R200). -/
def execGetDt (x : RegIdx) (s : State) : Result := .next (s.setV x s.dt)

/-- `mov dt vX` (R203). -/
def execSetDt (x : RegIdx) (s : State) : Result := .next (s.setDt (s.getV x))

/-- `ticks(c) = floor(c * 60 / (FPS * IPF))`, exactly (R207, D9). -/
def ticks (cfg : Config) (c : Nat) : Nat := c * 60 / ((cfg.fps : Nat) * (cfg.ipf : Nat))

/-- `k`, the 60 Hz boundaries crossed by the cycle that follows `c` cycles (R206). -/
def tickCount (cfg : Config) (c : Nat) : Nat := ticks cfg (c + 1) - ticks cfg c

/-- A timer counted down by `k`, clamped at zero (R206, R208). -/
def countDown (k : Nat) (b : Byte) : Byte := BitVec.ofNat 8 (b.toNat - k)

/-- `Tick()` under a configuration (R206). -/
def State.tickWith (cfg : Config) (s : State) : State :=
  { s with
    cycles := s.cycles + 1
    dt := countDown (tickCount cfg s.cycles) s.dt
    st := countDown (tickCount cfg s.cycles) s.st }

/-- `Tick()` (R206). -/
def State.tick (s : State) : State := s.tickWith Config.startup

end Sys2Proof.Machine
end

