-- ==== Sys2Proof/Machine/Cycle.lean ====
section
/-! DEFINITION. The phases around `Execute` in one step (spec/40_cycle.md R100, R106), and a word laid
out in memory. -/

namespace Sys2Proof.Machine

/-- What ends a step after `Execute`: the timer tick (R100, R206, D10). -/
def Result.thenTick : Result → Result
  | .next s => .next s.tick
  | .fault r => .fault r
  | .refused r => .refused r

/-- A word stored big-endian at address `a`, each byte address masked on its own (R53, R55). No
instruction stores: this is for the loader and for placing a word to be fetched. -/
def Memory.writeWord (m : Memory) (a : Nat) (w : Word) : Memory :=
  (m.write (maskAddr a) (highByte w)).write (maskAddr (a + 1)) (lowByte w)

end Sys2Proof.Machine
end

