-- ==== Sys2Proof/Machine/Flags.lean ====
section
/-! DEFINITION. The one flag, VF, and what computes it: the carry of the register add
(spec/41_alu.md R126 to R128) and the collision of a sprite (spec/45_display.md R235). -/

namespace Sys2Proof.Machine

/-- A flag as VF holds it: 1 or 0 (R127, R235). -/
def flagByte (c : Bool) : Byte := if c then 1 else 0

/-- The sum of the 8-bit add law: `(a + b) & 0xFF` (R126). -/
def addSum (a b : Byte) : Byte := BitVec.ofNat 8 (a.toNat + b.toNat)

/-- The carry of the 8-bit add law: `a + b > 255` on the exact sum (R126). -/
def addCarry (a b : Byte) : Bool := decide (255 < a.toNat + b.toNat)

/-- `V[15] <- c` (R127, R235). -/
def State.setFlag (s : State) (c : Bool) : State := s.setV flagReg (flagByte c)

/-- The two writes of `add vX vY`, in the order `P_ADD_VF` gives; the orders differ only when the
destination is VF (R127, R128). -/
def State.writeSumAndCarry (order : AddVf) (s : State) (x : RegIdx) (sum : Byte) (c : Bool) : State :=
  match order with
  | .carryWins => (s.setV x sum).setFlag c
  | .sumWins => (s.setFlag c).setV x sum

end Sys2Proof.Machine
end

