-- ==== Sys2Proof/Machine/Alu.lean ====
section
/-! DEFINITION. Register moves, the ALU and random (spec/41_alu.md). -/

namespace Sys2Proof.Machine

/-- `mov vX nn` (R120). -/
def execMovImm (x : RegIdx) (nn : Byte) (s : State) : Result := .next (s.setV x nn)

/-- `mov vX vY` (R122). -/
def execMovReg (x y : RegIdx) (s : State) : Result := .next (s.setV x (s.getV y))

/-- `add vX nn` (R124): VF is not written as a side effect. -/
def execAddImm (x : RegIdx) (nn : Byte) (s : State) : Result :=
  .next (s.setV x (addSum (s.getV x) nn))

/-- `add vX vY` under one value of `P_ADD_VF` (R127): both operands are read before either write. -/
def State.addReg (order : AddVf) (s : State) (x y : RegIdx) : State :=
  s.writeSumAndCarry order x (addSum (s.getV x) (s.getV y)) (addCarry (s.getV x) (s.getV y))

/-- `add vX vY` (R127, R128). -/
def execAddReg (x y : RegIdx) (s : State) : Result :=
  .next (State.addReg Config.startup.addVf s x y)

/-- `and vX vY` (R130). -/
def execAndReg (x y : RegIdx) (s : State) : Result := .next (s.setV x (s.getV x &&& s.getV y))

/-- `rnd vX nn` with the byte `r` drawn (R132). -/
def State.storeMasked (s : State) (r : Byte) (x : RegIdx) (nn : Byte) : State := s.setV x (r &&& nn)

/-- `rnd vX nn` (R132, R133): the drawn byte is a free value, a fresh one for each execution. -/
def execRnd (x : RegIdx) (nn : Byte) (s : State) : Result :=
  .next ((s.storeMasked (Config.rand8 s.draws) x nn).countDraw)

end Sys2Proof.Machine
end

