-- ==== Sys2Proof/Machine/Control.lean ====
section
/-! DEFINITION. Skips, jump, call and return (spec/43_control_flow.md). In the execute phase `pc`
already holds the address after the instruction (R102). -/

namespace Sys2Proof.Machine

/-- A skip: two more bytes when taken (R170, R173). -/
def State.skipIf (s : State) (c : Bool) : State := if c then s.advancePc else s

/-- `se vX nn` (R170). -/
def execSeImm (x : RegIdx) (nn : Byte) (s : State) : Result := .next (s.skipIf (s.getV x == nn))

/-- `se vX vY` (R173). -/
def execSeReg (x y : RegIdx) (s : State) : Result := .next (s.skipIf (s.getV x == s.getV y))

/-- `jmp nnn` (R176). -/
def execJmp (nnn : Addr) (s : State) : Result := .next (s.setPc (absoluteAddr nnn))

/-- `call nnn` (R179). -/
def execCall (nnn : Addr) (s : State) : Result := .next (s.pushPc.setPc (absoluteAddr nnn))

/-- `ret` (R182). -/
def execRet (s : State) : Result := .next s.popPc

end Sys2Proof.Machine
end

