-- ==== Sys2Proof/Machine/Display.lean ====
section
/-! DEFINITION. Framebuffer clear and the sprite rasterizer (spec/45_display.md). -/

namespace Sys2Proof.Machine

/-- `cls` (R230). -/
def execCls (s : State) : Result := .next (s.setFb Framebuffer.clear)

/-- The 8-pixel window that starts `sh` pixels into `hi` and goes on into `lo` (R234). -/
def rowWindow (hi lo : Byte) (sh : Nat) : Byte := (hi <<< sh) ||| (lo >>> (8 - sh))

/-- The first byte written back: the `sh` pixels left of the window are kept (R234). -/
def rowFirst (hi new : Byte) (sh : Nat) : Byte := (hi &&& ~~~(0xFF#8 >>> sh)) ||| (new >>> sh)

/-- The second byte written back: the `8 - sh` pixels right of the window are kept (R234). -/
def rowSecond (lo new : Byte) (sh : Nat) : Byte := (lo &&& (0xFF#8 >>> sh)) ||| (new <<< (8 - sh))

/-- The collision test: a pixel that was on is off (R234, R238, C3). -/
def collides (old new : Byte) : Bool := (~~~new &&& old) != 0

/-- `DrawRow(off, src)` for a pixel offset `off` below 2048: the framebuffer after the row, and its
collision bit (R234). Where the row is byte-aligned the second byte is not written. -/
def drawRow (tail : FbTail) (fb : Framebuffer) (off : Nat) (src : Byte) : Framebuffer × Bool :=
  let b := off / 8
  let sh := off % 8
  let hi := fb.get tail b
  let lo := fb.get tail (b + 1)
  let old := rowWindow hi lo sh
  let new := old ^^^ src
  let fb' := fb.put tail b (rowFirst hi new sh)
  (if sh = 0 then fb' else fb'.put tail (b + 1) (rowSecond lo new sh), collides old new)

/-- The pixel offset of sprite row `r`, modulo the pixel count (R235, C1, C3). -/
def spriteOffset (x0 y0 : Byte) (r : Nat) : Nat := ((y0.toNat + r) * 64 + x0.toNat) % pixelCount

/-- The first `count` rows of a sprite at origin column `x0` and row `y0`, drawn in rising order: the
framebuffer after them, and whether any row collided (R235). -/
def State.drawRows (tail : FbTail) (s : State) (x0 y0 : Byte) : Nat → Framebuffer × Bool
  | 0 => (s.fb, false)
  | r + 1 =>
      let before := State.drawRows tail s x0 y0 r
      let row := drawRow tail before.1 (spriteOffset x0 y0 r) (s.indexByte r)
      (row.1, before.2 || row.2)

/-- `drw vX vY n` under one value of `P_FB_TAIL` (R235): the origin is read before VF is written. -/
def State.drawSprite (tail : FbTail) (s : State) (x y : RegIdx) (n : Nat) : State :=
  let drawn := s.drawRows tail (s.getV x) (s.getV y) n
  (s.setFb drawn.1).setFlag drawn.2

/-- `drw vX vY n` (R235). -/
def execDrw (x y : RegIdx) (n : BitVec 4) (s : State) : Result :=
  .next (State.drawSprite Config.startup.fbTail s x y n.toNat)

end Sys2Proof.Machine
end

