-- ==== Sys2Proof/Machine/Index.lean ====
section
/-! DEFINITION. The index register and the block load (spec/42_index_memory.md). -/

namespace Sys2Proof.Machine

/-- `mov i nnn` (R150). -/
def execMovI (nnn : Addr) (s : State) : Result := .next (s.setI (absoluteAddr nnn))

/-- `add i vX` (R153): modulo 65536, no flag. -/
def execAddI (x : RegIdx) (s : State) : Result := .next (s.setI (s.i + (s.getV x).setWidth 16))

/-- The loads of the first `count` registers, in rising order (R156). -/
def State.loadRegs (s : State) : Nat → State
  | 0 => s
  | k + 1 => (s.loadRegs k).setV (Fin.ofNat 16 k) ((s.loadRegs k).indexByte k)

/-- `ldm vX` (R156): registers 0 to `x` inclusive; `I` is unchanged (R158). -/
def execLdm (x : RegIdx) (s : State) : Result := .next (s.loadRegs (x.val + 1))

end Sys2Proof.Machine
end

