-- ==== Sys2Proof/Machine/Dispatch.lean ====
section
/-! DEFINITION. `Execute(ins)` (spec/40_cycle.md R105): one meaning for each of the 18 instructions. -/

namespace Sys2Proof.Machine

def exec (i : Instr) (s : State) : Host.Outcome State Fault Refusal :=
  match i with
  | .cls => Sys2Proof.Machine.execCls s
  | .ret => Sys2Proof.Machine.execRet s
  | .jmp nnn => Sys2Proof.Machine.execJmp nnn s
  | .call nnn => Sys2Proof.Machine.execCall nnn s
  | .seImm x nn => Sys2Proof.Machine.execSeImm x nn s
  | .seReg x y => Sys2Proof.Machine.execSeReg x y s
  | .movImm x nn => Sys2Proof.Machine.execMovImm x nn s
  | .addImm x nn => Sys2Proof.Machine.execAddImm x nn s
  | .movReg x y => Sys2Proof.Machine.execMovReg x y s
  | .andReg x y => Sys2Proof.Machine.execAndReg x y s
  | .addReg x y => Sys2Proof.Machine.execAddReg x y s
  | .movI nnn => Sys2Proof.Machine.execMovI nnn s
  | .rnd x nn => Sys2Proof.Machine.execRnd x nn s
  | .drw x y n => Sys2Proof.Machine.execDrw x y n s
  | .getDt x => Sys2Proof.Machine.execGetDt x s
  | .setDt x => Sys2Proof.Machine.execSetDt x s
  | .addI x => Sys2Proof.Machine.execAddI x s
  | .ldm x => Sys2Proof.Machine.execLdm x s

end Sys2Proof.Machine
end

