-- ==== Sys2Proof/Machine/Step.lean ====
section
/-! DEFINITION. One step (spec/40_cycle.md R100, R101). -/

namespace Sys2Proof.Machine

/-- `Step`: fetch the word at `pc`, advance `pc`, decode, execute, tick (R100). An invalid word leaves
the faulted state, with no tick (R106). Enabled only while `status` is `Running` (R101); the fault of
`step` in another status says that no step is enabled. -/
def step (s : State) : Host.Outcome State Fault Refusal :=
  match s.status with
  | .running =>
      match decode s.fetchWord with
      | .instr i => Result.thenTick (exec i s.advancePc)
      | .invalid => .next (s.advancePc.raiseInvalidOpcode s.pc s.fetchWord)
  | .faulted info => .fault (.stepAfterFault info)
  | .stopped => .fault .stepAfterStop

/-- `s` with an instruction's word stored where `step` fetches next: the two bytes at `pc`, big-endian,
each address masked. It stands for the loader, which alone writes memory (R59, R283; log entry 11).
`status` is not touched: in a faulted or stopped state there is no next fetch. -/
def State.withFetchWord (s : State) (nbits w : Nat) : State :=
  { s with mem := s.mem.writeWord s.pc.toNat (tableWord nbits w) }

end Sys2Proof.Machine
end

