-- ==== Sys2Proof/Machine/HostPort.lean ====
section
/-! DEFINITION. What the host does to the machine (spec/10_state.md R37, 60_exceptions.md R270, R271):
launch an image, run a frame, read the framebuffer, stop the run. -/

namespace Sys2Proof.Machine

/-- The largest image: 0x200 to 0xFFF (R285). -/
abbrev maxImage : Nat := memSize - loadAddr

/-- Bytes stored at consecutive addresses from `a` (R283). -/
def Memory.load (m : Memory) (a : Nat) : List Byte → Memory
  | [] => m
  | b :: bs => Memory.load (m.write a b) (a + 1) bs

/-- Reset with a program image, loaded verbatim at 0x200 into zeroed memory (R280, R283); a longer
image is refused (R285, D12). -/
def launch (img : List Byte) : Result :=
  if img.length ≤ maxImage then .next { State.reset with mem := Memory.load [] loadAddr img }
  else .refused (.imageTooLong img.length)

/-- The host stops the run between two steps (R270, D24). A run that has faulted has ended: `Faulted`
is left only by a new reset (R35). -/
def hostStop (s : State) : State :=
  match s.status with
  | .running => { s with status := .stopped }
  | .faulted _ => s
  | .stopped => s

/-- The pixel test of the render adapter: `FB[8*row + col/8] & (1 << (7 - col%8))` (R241), for a
column below 64 and a row below 32 (R32). -/
def pixelOn (fb : Framebuffer) (col row : Nat) : Bool :=
  (fb.get .drop (8 * row + col / 8) &&& (1#8 <<< (7 - col % 8))) != 0

/-- Up to `count` steps, ending early at a step that leaves the block faulted (R209). -/
def runSteps : Nat → State → Result
  | 0, s => .next s
  | k + 1, s =>
      match step s with
      | .next t => if t.status = .running then runSteps k t else .next t
      | .fault r => .fault r
      | .refused r => .refused r

/-- A frame under a configuration: `IPF` steps (R209, D22). -/
def frameWith (cfg : Config) (s : State) : Result := runSteps cfg.ipf s

/-- `advance_frame`: `IPF` steps, after which the host renders (R209). -/
def frame (s : State) : Result := frameWith Config.startup s

/-- Logical time after `c` cycles, in milliseconds: `c * 1000 / (FPS * IPF)` (R34, R211). -/
def logicalMs (cfg : Config) (c : Nat) : ℚ := (c * 1000 : ℚ) / ((cfg.fps : ℚ) * (cfg.ipf : ℚ))

end Sys2Proof.Machine
end

