-- ==== Sys2Proof/Safety.lean ====
section
/-! DEFINITION. The terms claims are made in: the parts of a state and what stays the same, what a
safe run is, the invariant of a run, the pixels of the framebuffer and of a sprite, instructions run
in a row, and the classes of instructions the rules of spec/ speak of. -/

namespace Sys2Proof.Machine

/-! ### The parts of a state -/

/-- Every piece of the state (R20), each byte of memory and framebuffer on its own. -/
inductive Part where
  | reg (r : RegIdx)
  | index
  | pc
  | sp
  | slot (k : Fin stackDepth)
  | dt
  | st
  | fbByte (j : Fin fbBytes)
  | memByte (a : Nat)
  | cycles
  | status
  | draws
  deriving DecidableEq, Repr

/-- What a part of a state holds. -/
inductive PartValue where
  | byte (b : Byte)
  | word (w : Word)
  | num (n : Nat)
  | status (st : Status)
  deriving DecidableEq, Repr

/-- What a state holds in one part; a byte of memory through the model's read of one byte. -/
def State.look (s : State) : Part → PartValue
  | .reg r => .byte (s.getV r)
  | .index => .word s.i
  | .pc => .word s.pc
  | .sp => .num s.sp.val
  | .slot k => .word (s.getSlot k)
  | .dt => .byte s.dt
  | .st => .byte s.st
  | .fbByte j => .byte s.fb[j.val]
  | .memByte a => .byte (s.mem.read a)
  | .cycles => .num s.cycles
  | .status => .status s.status
  | .draws => .num s.draws

/-- The frame: every part of `t` that is not among the `written` ones is as it was in `s`. -/
def SameExcept (written : Part → Prop) (s t : State) : Prop :=
  ∀ p, ¬ written p → t.look p = s.look p

/-! ### Safety -/

/-- No invalid word has been dispatched (R266: a faulted state is a final, bad state). -/
def State.Safe (s : State) : Prop := ∀ info, s.status ≠ .faulted info

/-- What holds along every run: memory is in canonical form (R50), the reserved range reads 0 (R52),
`ST` is 0 (R31), and a recorded fault is true of the memory it was fetched from (R106, R260). -/
structure State.Inv (s : State) : Prop where
  mem_wf : s.mem.wf = true
  reserved_zero : ∀ a, a < loadAddr → s.mem.read a = 0
  sound_zero : s.st = 0
  fault_true : ∀ info, s.status = .faulted info →
    info.word = s.wordAt info.fetchAddr ∧ decode info.word = .invalid ∧ s.pc = info.fetchAddr + 2

/-! ### Pixels -/

/-- The pixel with linear offset `off = row * 64 + col`: bit `7 - off mod 8` of byte `off div 8`
(R32). -/
def Framebuffer.pixel (fb : Framebuffer) (off : Nat) : Bool :=
  (fb.get .drop (off / 8)).getLsbD (7 - off % 8)

/-- Where the pixel drawn at offset `q` (below 2048 + 7) is on the screen: at `q` itself, or past the
last pixel at `q - 2048` where `P_FB_TAIL` wraps, and nowhere where it drops (R233, R237). -/
def landsOn (tail : FbTail) (q off : Nat) : Prop :=
  q = off ∨ (tail = .wrap ∧ q = off + pixelCount)

/-- Sprite row `src` at offset `at_` has a set bit on pixel `off`: bit `7 - k` of the row is the pixel
at `at_ + k` (R234). -/
def rowLights (tail : FbTail) (at_ : Nat) (src : Byte) (off : Nat) : Prop :=
  ∃ k, k < 8 ∧ src.getLsbD (7 - k) = true ∧ landsOn tail (at_ + k) off

/-- A sprite of `n` rows at origin `(x0, y0)`, read from memory at `I`, has a set bit on pixel `off`
(R235). -/
def State.spriteLights (tail : FbTail) (s : State) (x0 y0 : Byte) (n off : Nat) : Prop :=
  ∃ r, r < n ∧ rowLights tail (spriteOffset x0 y0 r) (s.indexByte r) off

/-! ### Instructions in a row -/

/-- The execute phases of a list of instructions, one after the other. -/
def execSeq : List Instr → State → Result
  | [], s => .next s
  | i :: is, s =>
      match exec i s with
      | .next t => execSeq is t
      | .fault r => .fault r
      | .refused r => .refused r

end Sys2Proof.Machine

namespace Sys2Proof

/-! ### Classes of instructions -/

/-- The instructions that may write `pc` in their execute phase (R26). -/
def Instr.writesPc : Instr → Bool
  | .seImm _ _ => true
  | .seReg _ _ => true
  | .jmp _ => true
  | .call _ => true
  | .ret => true
  | _ => false

/-- The instructions that read or write `SP` and the stack (R27, R28). -/
def Instr.usesStack : Instr → Bool
  | .call _ => true
  | .ret => true
  | _ => false

/-- The instructions that read or write `I` (R24). -/
def Instr.usesIndex : Instr → Bool
  | .movI _ => true
  | .addI _ => true
  | .ldm _ => true
  | .drw _ _ _ => true
  | _ => false

/-- The instructions that read or write `DT` (R30). -/
def Instr.usesDt : Instr → Bool
  | .getDt _ => true
  | .setDt _ => true
  | _ => false

/-- The instructions that read or write the framebuffer (R32). -/
def Instr.usesFb : Instr → Bool
  | .cls => true
  | .drw _ _ _ => true
  | _ => false

/-- The registers an instruction writes (the last column of R23). -/
def Instr.writesReg : Instr → RegIdx → Bool
  | .movImm x _, r => r == x
  | .movReg x _, r => r == x
  | .addImm x _, r => r == x
  | .addReg x _, r => r == x || r == 15
  | .andReg x _, r => r == x
  | .rnd x _, r => r == x
  | .ldm x, r => decide (r ≤ x)
  | .getDt x, r => r == x
  | .drw _ _ _, r => r == 15
  | _, _ => false

end Sys2Proof
end

