-- ==== Sys2Proof/Certificates/Slice0/Obligations.lean ====
section
/-! DEFINITION. The statements for the provers, each from numbered rules of spec/. Where a statement
rests on a choice the spec marks as its own, or on one of this model's, its docstring says so. -/

open Sys2Proof Sys2Proof.Machine

/-! ### Encoding (spec/30_encoding.md) -/

/-- R83: decoding the encoding of any instruction gives it back, every operand at every value. The
patterns are the spec's from general knowledge (D1, log entry 1). -/
def Obligations.DecodeOfEncodeGivesBackTheInstruction : Prop :=
  ∀ i : Instr, decode (encode i) = .instr i

/-- R83: for every valid word, encoding the decoded instruction gives the word (D1, D2). -/
def Obligations.EncodeOfDecodeGivesBackTheWord : Prop :=
  ∀ (w : Word) (i : Instr), decode w = .instr i → encode i = w

/-- R83: the encoding is the row's match or-ed with the shifted fields of its format (D1). -/
def Obligations.EncodingIsMatchWithShiftedFields : Prop :=
  ∀ i : Instr,
    (encode i).toNat =
      match i with
      | .cls => 0x00E0
      | .ret => 0x00EE
      | .jmp a => 0x1000 ||| a.toNat
      | .call a => 0x2000 ||| a.toNat
      | .seImm x nn => 0x3000 ||| (x.val <<< 8) ||| nn.toNat
      | .seReg x y => 0x5000 ||| (x.val <<< 8) ||| (y.val <<< 4)
      | .movImm x nn => 0x6000 ||| (x.val <<< 8) ||| nn.toNat
      | .addImm x nn => 0x7000 ||| (x.val <<< 8) ||| nn.toNat
      | .movReg x y => 0x8000 ||| (x.val <<< 8) ||| (y.val <<< 4)
      | .andReg x y => 0x8002 ||| (x.val <<< 8) ||| (y.val <<< 4)
      | .addReg x y => 0x8004 ||| (x.val <<< 8) ||| (y.val <<< 4)
      | .movI a => 0xA000 ||| a.toNat
      | .rnd x nn => 0xC000 ||| (x.val <<< 8) ||| nn.toNat
      | .drw x y n => 0xD000 ||| (x.val <<< 8) ||| (y.val <<< 4) ||| n.toNat
      | .getDt x => 0xF007 ||| (x.val <<< 8)
      | .setDt x => 0xF015 ||| (x.val <<< 8)
      | .addI x => 0xF01E ||| (x.val <<< 8)
      | .ldm x => 0xF065 ||| (x.val <<< 8)

/-- R82: no two rows of the opcode map match the same word, and a word decodes to an instruction
exactly when some row matches it, namely its own row (D1, D2). -/
def Obligations.ValidWordsAreTheRowsOfTheOpcodeMap : Prop :=
  opcodeMap.Pairwise (fun r q => ∀ w : Word, ¬ (w &&& r.mask = r.pattern ∧ w &&& q.mask = q.pattern)) ∧
  (∀ (w : Word) (i : Instr), decode w = .instr i → w &&& i.row.mask = i.row.pattern) ∧
  (∀ w : Word, decode w = .invalid ↔ ∀ r ∈ opcodeMap, w &&& r.mask ≠ r.pattern)

/-- R80: the invalid words are exactly the eight classes of the rule's table (D1, D2). -/
def Obligations.InvalidWordsAreTheEightClasses : Prop :=
  ∀ w : Word, decode w = .invalid ↔
    (w.toNat ≤ 0x0FFF ∧ w.toNat ≠ 0x00E0 ∧ w.toNat ≠ 0x00EE) ∨
    (0x4000 ≤ w.toNat ∧ w.toNat ≤ 0x4FFF) ∨
    (0x5000 ≤ w.toNat ∧ w.toNat ≤ 0x5FFF ∧ w.toNat % 16 ≠ 0) ∨
    (0x8000 ≤ w.toNat ∧ w.toNat ≤ 0x8FFF ∧ w.toNat % 16 ≠ 0 ∧ w.toNat % 16 ≠ 2 ∧ w.toNat % 16 ≠ 4) ∨
    (0x9000 ≤ w.toNat ∧ w.toNat ≤ 0x9FFF) ∨
    (0xB000 ≤ w.toNat ∧ w.toNat ≤ 0xBFFF) ∨
    (0xE000 ≤ w.toNat ∧ w.toNat ≤ 0xEFFF) ∨
    (0xF000 ≤ w.toNat ∧ w.toNat % 256 ≠ 0x07 ∧ w.toNat % 256 ≠ 0x15 ∧ w.toNat % 256 ≠ 0x1E ∧
      w.toNat % 256 ≠ 0x65)

/-- R73: the immediates of a decoded instruction are the word masked to its low 8, 12 or 4 bits, with
no sign extension, scaling or shift; an address is zero-extended where it is written to `pc` or `I`. -/
def Obligations.ImmediatesAreTheWordMasked : Prop :=
  (∀ (w : Word) (i : Instr), decode w = .instr i →
    match i with
    | .jmp a | .call a | .movI a => a.toNat = w.toNat &&& 0xFFF
    | .seImm _ nn | .movImm _ nn | .addImm _ nn | .rnd _ nn => nn.toNat = w.toNat &&& 0xFF
    | .drw _ _ n => n.toNat = w.toNat &&& 0xF
    | .cls | .ret | .seReg _ _ | .movReg _ _ | .andReg _ _ | .addReg _ _ | .getDt _ | .setDt _
    | .addI _ | .ldm _ => True) ∧
  (∀ (a : Addr) (s : State),
    (∃ t, exec (.jmp a) s = .next t ∧ t.pc.toNat = a.toNat) ∧
    (∃ t, exec (.call a) s = .next t ∧ t.pc.toNat = a.toNat) ∧
    (∃ t, exec (.movI a) s = .next t ∧ t.i.toNat = a.toNat))

/-- R71: the register operands of a decoded instruction are bits 11 to 8 and bits 7 to 4 of the
word (which instruction uses which field: R72, general knowledge, D1). -/
def Obligations.RegisterOperandsAreTheirBitFields : Prop :=
  ∀ (w : Word) (i : Instr), decode w = .instr i →
    match i with
    | .seReg x y | .movReg x y | .andReg x y | .addReg x y | .drw x y _ =>
        x.val = w.toNat / 256 % 16 ∧ y.val = w.toNat / 16 % 16
    | .seImm x _ | .movImm x _ | .addImm x _ | .rnd x _ | .getDt x | .setDt x | .addI x | .ldm x =>
        x.val = w.toNat / 256 % 16
    | .cls | .ret | .jmp _ | .call _ | .movI _ => True

/-- spec/95_test_vectors.md section 2.1: one word of each family, and four invalid ones (D1, D2). -/
def Obligations.SampleWordsDecodeAsTheSpecLists : Prop :=
  decodeBytes 0x00 0xE0 = .instr .cls ∧
  decodeBytes 0x23 0x00 = .instr (.call 0x300) ∧
  decodeBytes 0x34 0x2A = .instr (.seImm 4 0x2A) ∧
  decodeBytes 0x80 0x14 = .instr (.addReg 0 1) ∧
  decodeBytes 0xF2 0x1E = .instr (.addI 2) ∧
  decodeBytes 0xF3 0x15 = .instr (.setDt 3) ∧
  decodeBytes 0xDF 0xFF = .instr (.drw 15 15 15) ∧
  decodeBytes 0x00 0x00 = .invalid ∧ decodeBytes 0x00 0xE1 = .invalid ∧
  decodeBytes 0x51 0x21 = .invalid ∧ decodeBytes 0xF0 0x18 = .invalid

/-- R91: a line assembles to an instruction exactly when it spells that instruction, so an operand out
of range is refused and never truncated; exactly the well-formed lines assemble (D3). -/
def Obligations.AssemblerRefusesOutOfRangeAndNeverTruncates : Prop :=
  (∀ (l : AsmLine) (i : Instr), l.assemble = some i ↔ l = i.asm) ∧
  (∀ l : AsmLine, l.assemble.isSome = l.wellFormed)

/-! ### Reset and launch (spec/70_reset_and_hazards.md) -/

/-- R280: after reset every piece of state is 0, `pc` is 0x0200 and `status` is `Running` (with
`cycles`, D9, and `status`, D14). The model's own `draws` is left out. -/
def Obligations.ResetStateIsZeroExceptPcAndStatus : Prop :=
  ∀ p : Part, p ≠ .draws →
    State.reset.look p =
      match p with
      | .reg _ | .dt | .st | .fbByte _ | .memByte _ => .byte 0
      | .index | .slot _ => .word 0
      | .pc => .word 0x0200
      | .sp | .cycles | .draws => .num 0
      | .status => .status .running

/-- R283: an image is loaded verbatim at 0x200 into zeroed memory, before the first step and never
again: the rest of the state is the reset state. That no step changes memory is more than R283 says: it
is R59, the spec's decision D15 (log entry 20). -/
def Obligations.LaunchLoadsTheImageVerbatim : Prop :=
  (∀ img : List Byte, img.length ≤ 3584 →
    ∃ t, launch img = .next t ∧
      (∀ (k : Nat) (h : k < img.length), t.mem.read (0x200 + k) = img[k]) ∧
      (∀ a, a < 0x200 ∨ 0x200 + img.length ≤ a → t.mem.read a = 0) ∧
      SameExcept (fun p => ∃ a, p = .memByte a) State.reset t) ∧
  (∀ s t, step s = .next t → t.mem = s.mem)

/-- R281, R285: after a launch the first step fetches the word at 0x200 and 0x201; an image of more than
3584 bytes is refused (D12, log entry 12). That the machine is running is R280, the high byte first R103
and R55; the invariant of a run is R280 and R283 with R52 (D18, log entry 17) and R31 (D21, log entry
18). -/
def Obligations.LaunchEntersAtTheLoadAddressOrRefuses : Prop :=
  (∀ img t, launch img = .next t →
    t.pc = 0x0200 ∧ t.status = .running ∧
    t.fetchWord.toNat = 256 * (t.mem.read 0x200).toNat + (t.mem.read 0x201).toNat ∧ t.Inv) ∧
  (∀ img : List Byte, 3584 < img.length → launch img = .refused (.imageTooLong img.length))

/-! ### State and memory (spec/10_state.md, spec/20_memory.md) -/

/-- R20: the parts of the state are all of it: two states with canonical memory that agree in every
part are one state. -/
def Obligations.StatesThatAgreeInEveryPartAreEqual : Prop :=
  ∀ s t : State, s.mem.wf = true → t.mem.wf = true → (∀ p, s.look p = t.look p) → s = t

/-- R53: every memory address is reduced modulo 4096 before the access, at fetch and through `I`, and no
step is stopped by an address. That the fetch takes the high byte first and masks each byte address on
its own is R103, R58 and R55 under the spec's decision D11 (log entry 13); that every step of a running
machine answers a next state, an invalid word's included, is the model's choice of log entry 9. -/
def Obligations.EveryMemoryAddressIsMasked : Prop :=
  (∀ (s : State) (a : Nat), s.memRead a = s.mem.read (a &&& 0xFFF)) ∧
  (∀ s : State, s.fetchWord.toNat =
    256 * (s.mem.read (s.pc.toNat &&& 0xFFF)).toNat
      + (s.mem.read ((s.pc.toNat + 1) &&& 0xFFF)).toNat) ∧
  (∀ (s : State) (k : Nat), s.indexByte k = s.mem.read ((s.i.toNat + k) &&& 0xFFF)) ∧
  (∀ s : State, s.status = .running → ∃ t, step s = .next t)

/-- R21: no register is hard-wired or banked: each reads as the last value written to it, whatever
that value, and a write leaves every other register; all are 0 at reset. -/
def Obligations.RegistersReadAsLastWritten : Prop :=
  (∀ (s : State) (r q : RegIdx) (b : Byte),
    (s.setV r b).getV q = if q = r then b else s.getV q) ∧
  (∀ r : RegIdx, State.reset.getV r = 0) ∧
  (∀ (i : Instr) (s t : State) (r : RegIdx), exec i s = .next t → i.writesReg r = false →
    t.getV r = s.getV r)

/-- R22: VF changes as a side effect of `add vX vY` and `drw vX vY n` only; any other instruction that
writes it names it as a destination (D27). -/
def Obligations.FlagRegisterSideEffectsAreAddAndDraw : Prop :=
  ∀ (i : Instr) (s t : State), exec i s = .next t → t.getV 15 ≠ s.getV 15 →
    (∃ x y, i = .addReg x y) ∨ (∃ x y n, i = .drw x y n) ∨ (∃ nn, i = .movImm 15 nn) ∨
    (∃ y, i = .movReg 15 y) ∨ (∃ nn, i = .addImm 15 nn) ∨ (∃ y, i = .andReg 15 y) ∨
    (∃ nn, i = .rnd 15 nn) ∨ i = .getDt 15 ∨ i = .ldm 15

/-- R24: `I` is read and written by `mov i`, `add i`, `ldm` and `drw` only, of which `ldm` and `drw` do
not write it and read it for the bytes they load or draw; it keeps all 16 bits, and only a memory access
reduces it; it is 0 at reset. That `ldm` leaves it is R158, the spec's decision D7 (log entry 15). Two
executions that are compared draw the same random byte (log entry 6). -/
def Obligations.IndexRegisterHasItsFourUsers : Prop :=
  (∀ (i : Instr) (s t : State) (a : Word), i.usesIndex = false → exec i s = .next t →
    exec i { s with i := a } = .next { t with i := a }) ∧
  (∀ (nnn : Addr) (s : State), ∃ t, exec (.movI nnn) s = .next t ∧ t.i.toNat = nnn.toNat) ∧
  (∀ (x : RegIdx) (s : State), ∃ t, exec (.addI x) s = .next t ∧
    t.i.toNat = (s.i.toNat + (s.getV x).toNat) % 65536) ∧
  (∀ (x : RegIdx) (s : State), ∃ t, exec (.ldm x) s = .next t ∧ t.i = s.i ∧
    ∀ k : RegIdx, k ≤ x → t.getV k = s.indexByte k.val) ∧
  (∀ (x y : RegIdx) (n : BitVec 4) (s : State), ∃ t, exec (.drw x y n) s = .next t ∧ t.i = s.i) ∧
  (∀ (x y : RegIdx) (n : BitVec 4) (s t : State) (a : Word),
    (∀ k, k < n.toNat → State.indexByte { s with i := a } k = s.indexByte k) →
    exec (.drw x y n) s = .next t → exec (.drw x y n) { s with i := a } = .next { t with i := a }) ∧
  (∀ (s : State) (k : Nat), s.indexByte k = s.mem.read ((s.i.toNat + k) &&& 0xFFF)) ∧
  State.reset.i = 0

/-- R27: `SP` goes one up on a call and one down on a return, both modulo the capacity with no fault; it
is the slot the next call writes; no other instruction reads or writes it; it is 0 at reset. The
capacity 16 is the spec's decision D19 (log entry 14). -/
def Obligations.StackPointerWrapsOnCallAndReturn : Prop :=
  (∀ (nnn : Addr) (s : State), ∃ t, exec (.call nnn) s = .next t ∧
    t.sp.val = (s.sp.val + 1) % 16 ∧ t.getSlot s.sp = s.pc) ∧
  (∀ s : State, ∃ t, exec .ret s = .next t ∧ t.sp.val = (s.sp.val + 15) % 16) ∧
  (∀ (i : Instr) (s t : State) (k : Fin stackDepth), i.usesStack = false → exec i s = .next t →
    exec i { s with sp := k } = .next { t with sp := k }) ∧
  State.reset.sp = 0

/-- R28: stack entries are written only by `call nnn` and read only by `ret`, which does not clear the
one it reads; each is 0 at reset (depth D19, width D29). -/
def Obligations.StackEntriesAreForCallAndReturnOnly : Prop :=
  (∀ (i : Instr) (s t : State) (st : Vector Word stackDepth), i.usesStack = false →
    exec i s = .next t → exec i { s with stack := st } = .next { t with stack := st }) ∧
  (∀ (nnn : Addr) (s t : State), exec (.call nnn) s = .next t →
    ∀ k, t.getSlot k = if k = s.sp then s.pc else s.getSlot k) ∧
  (∀ s t : State, exec .ret s = .next t → ∀ k, t.getSlot k = s.getSlot k) ∧
  (∀ k, State.reset.getSlot k = 0)

/-- R30: `DT` is written by `mov dt vX` and the tick, read by `mov vX dt`, and touched by no other
instruction; the tick never takes it below zero; it is 0 at reset. -/
def Obligations.DelayTimerHasItsThreeUsers : Prop :=
  (∀ (i : Instr) (s t : State) (b : Byte), i.usesDt = false → exec i s = .next t →
    exec i { s with dt := b } = .next { t with dt := b }) ∧
  (∀ (x : RegIdx) (s : State), ∃ t, exec (.setDt x) s = .next t ∧ t.dt = s.getV x) ∧
  (∀ (x : RegIdx) (s : State), ∃ t, exec (.getDt x) s = .next t ∧ t.getV x = s.dt ∧ t.dt = s.dt) ∧
  (∀ s : State, s.tick.dt.toNat ≤ s.dt.toNat) ∧
  State.reset.dt = 0

/-- R31, R34, R35: no instruction reads or writes `ST`, `cycles` or `status` (D9, D14, D21). -/
def Obligations.InstructionsDoNotSeeTheScheduler : Prop :=
  ∀ (i : Instr) (s t : State) (b : Byte) (c : Nat) (q : Status), exec i s = .next t →
    t.st = s.st ∧ t.cycles = s.cycles ∧ t.status = s.status ∧
    exec i { s with st := b, cycles := c, status := q }
      = .next { t with st := b, cycles := c, status := q }

/-- R32: pixel (col, row) is bit 7 - col mod 8 of byte 8*row + col div 8, which is bit 7 - off mod 8
of byte off div 8 for off = row*64 + col; the framebuffer is 256 bytes, read and written by `cls` and
`drw` alone among the instructions, part of no memory read, and 0 at reset. -/
def Obligations.FramebufferLayoutAndUsers : Prop :=
  (∀ (fb : Framebuffer) (col row : Nat) (hc : col < 64) (hr : row < 32),
    pixelOn fb col row = (fb[8 * row + col / 8]'(by show _ < 256; omega)).getLsbD (7 - col % 8) ∧
    pixelOn fb col row = fb.pixel (row * 64 + col)) ∧
  (∀ (i : Instr) (s t : State) (fb : Framebuffer), i.usesFb = false → exec i s = .next t →
    exec i { s with fb := fb } = .next { t with fb := fb }) ∧
  (∀ (s : State) (fb : Framebuffer) (a : Nat), State.memRead { s with fb := fb } a = s.memRead a) ∧
  (∀ j : Fin 256, State.reset.fb[j.val] = 0)

/-! ### The cycle (spec/40_cycle.md, spec/60_exceptions.md) -/

/-- R100: a step of a running machine whose fetched word decodes to `i` is `exec i` on the state with
`pc` two further, and then the tick (D8, D10). -/
def Obligations.StepRunsTheDecodedInstruction : Prop :=
  ∀ (s : State) (i : Instr), s.status = .running → decode s.fetchWord = .instr i →
    step s =
      match exec i { s with pc := s.pc + 2 } with
      | .next t => .next t.tick
      | .fault r => .fault r
      | .refused r => .refused r

/-- R102: the counter advances by 2 at fetch, modulo 65536, before execute, so every instruction sees a
+ 2: a straight-line instruction, a skip not taken and an invalid word leave a + 2, a taken skip a + 4,
and a call pushes a + 2. The tick after execute is R100 under the spec's decision D10 (log entry 8); the
faulted next state of an invalid word is R106 under D14 (log entry 9). -/
def Obligations.ProgramCounterAdvancesAtFetch : Prop :=
  ∀ s : State, s.status = .running →
    (∀ i, decode s.fetchWord = .instr i →
      ∃ u, exec i { s with pc := s.pc + 2 } = .next u ∧ step s = .next u.tick) ∧
    (∀ i, decode s.fetchWord = .instr i → i.writesPc = false →
      ∃ t, step s = .next t ∧ t.pc.toNat = (s.pc.toNat + 2) % 65536) ∧
    (∀ x nn, decode s.fetchWord = .instr (.seImm x nn) →
      ∃ t, step s = .next t ∧
        t.pc.toNat = (s.pc.toNat + if s.getV x = nn then 4 else 2) % 65536) ∧
    (∀ x y, decode s.fetchWord = .instr (.seReg x y) →
      ∃ t, step s = .next t ∧
        t.pc.toNat = (s.pc.toNat + if s.getV x = s.getV y then 4 else 2) % 65536) ∧
    (∀ nnn, decode s.fetchWord = .instr (.call nnn) →
      ∃ t, step s = .next t ∧ (t.getSlot s.sp).toNat = (s.pc.toNat + 2) % 65536) ∧
    (decode s.fetchWord = .invalid →
      ∃ t, step s = .next t ∧ t.pc.toNat = (s.pc.toNat + 2) % 65536 ∧
        t.status = .faulted ⟨s.pc, s.fetchWord⟩)

/-- R106, R260, R261: dispatching an invalid word leaves the faulted state with the fetch address and
the word recorded and code 1, `pc` two further and nothing else changed, the tick included (D14, D28,
log entries 9, 22, 25). -/
def Obligations.InvalidWordLeavesTheFaultedState : Prop :=
  ∀ s : State, s.status = .running → decode s.fetchWord = .invalid →
    ∃ t, step s = .next t ∧ t.status = .faulted ⟨s.pc, s.fetchWord⟩ ∧ t.status.faultCode = some 1 ∧
      t.pc = s.pc + 2 ∧ SameExcept (fun p => p = .pc ∨ p = .status) s t

/-- R101, R266: in a faulted or stopped state no step is enabled (the two faults by which this model
says so: log entries 9, 10). -/
def Obligations.NoStepIsEnabledUnlessRunning : Prop :=
  (∀ (s : State) (info : FaultInfo), s.status = .faulted info →
    step s = .fault (.stepAfterFault info)) ∧
  (∀ s : State, s.status = .stopped → step s = .fault .stepAfterStop)

/-- R262: nothing but an invalid word faults: from every running state, at every address, stack pointer,
counter and operand, a step answers a next state, which is still running unless the word was invalid;
and a launch never faults. That an invalid word's step answers a NEXT state, faulted with the address
and the word, is R106 and R260 under the spec's decision D14, in the model's form of log entry 9. -/
def Obligations.NothingButAnInvalidWordFaults : Prop :=
  (∀ s : State, s.status = .running →
    ∃ t, step s = .next t ∧
      (decode s.fetchWord = .invalid → t.status = .faulted ⟨s.pc, s.fetchWord⟩) ∧
      (decode s.fetchWord ≠ .invalid → t.status = .running)) ∧
  (∀ (img : List Byte) (f : Fault), launch img ≠ .fault f)

/-- R105: execute gives every one of the 18 instructions an effect in every state; the only failure is
the dispatch of an invalid word, whose faulted next state is R106 under D14 (log entry 9). -/
def Obligations.ExecuteFailsForNoInstruction : Prop :=
  (∀ (i : Instr) (s : State), ∃ t, exec i s = .next t ∧ t.status = s.status) ∧
  (∀ s t : State, step s = .next t → t.status ≠ .running → decode s.fetchWord = .invalid)

/-- R26: `pc` changes in the execute phase of skips, `jmp`, `call` and `ret` only, and only `call`
reads it as data. -/
def Obligations.OnlyControlInstructionsUseThePc : Prop :=
  (∀ (i : Instr) (s t : State), i.writesPc = false → exec i s = .next t → t.pc = s.pc) ∧
  (∀ (i : Instr) (s t u : State) (a : Word), exec i s = .next t →
    exec i { s with pc := a } = .next u → (∀ nnn, i ≠ .call nnn) → { u with pc := t.pc } = t)

/-- The invariant holds at reset (R280), with R52 (D18, log entry 17) and R31 (D21, log entry 18). -/
def Obligations.InvariantHoldsAtReset : Prop := State.reset.Inv

/-- The invariant of a run, kept by every step: canonical memory, the reserved range reads 0 (R52, D18,
log entry 17; no step writes memory: R59, D15, log entry 20), `ST` is 0 (R31, D21, log entry 18), and a
recorded fault names the invalid word that stands in memory at its address, with `pc` two past it (R106,
R260, D14, log entry 9). -/
def Obligations.EveryStepKeepsTheInvariant : Prop :=
  ∀ s t : State, s.Inv → step s = .next t → t.Inv

/-- R270: the host stops a running machine between steps, changing nothing but `status`, after which no
step is enabled; a faulted machine stays faulted (R35). The model's choice D24, log entry 10. -/
def Obligations.HostStopEndsTheRun : Prop :=
  (∀ s : State, s.status = .running →
    (hostStop s).status = .stopped ∧ SameExcept (fun p => p = .status) s (hostStop s) ∧
    step (hostStop s) = .fault .stepAfterStop) ∧
  (∀ s : State, s.status ≠ .running → hostStop s = s)

/-! ### Register moves, ALU and random (spec/41_alu.md) -/

/-- R120, R122: each move writes its destination, of every register, and nothing else. -/
def Obligations.MovesWriteTheirDestinationOnly : Prop :=
  (∀ (x : RegIdx) (nn : Byte) (s : State), ∃ t, exec (.movImm x nn) s = .next t ∧
    t.getV x = nn ∧ SameExcept (fun p => p = .reg x) s t) ∧
  (∀ (x y : RegIdx) (s : State), ∃ t, exec (.movReg x y) s = .next t ∧
    t.getV x = s.getV y ∧ SameExcept (fun p => p = .reg x) s t)

/-- R126: the 8-bit add law, for both add forms: the sum is taken modulo 256 and the carry is 1 exactly
when the exact sum exceeds 255. -/
def Obligations.EightBitAddLaw : Prop :=
  (∀ a b : Byte, (addSum a b).toNat = (a.toNat + b.toNat) &&& 0xFF ∧
    (addCarry a b = true ↔ a.toNat + b.toNat > 255)) ∧
  (∀ (x : RegIdx) (nn : Byte) (s : State), ∃ t, exec (.addImm x nn) s = .next t ∧
    (t.getV x).toNat = ((s.getV x).toNat + nn.toNat) % 256) ∧
  (∀ (x y : RegIdx) (s : State), x ≠ 15 → ∃ t, exec (.addReg x y) s = .next t ∧
    (t.getV x).toNat = ((s.getV x).toNat + (s.getV y).toNat) % 256 ∧
    (t.getV 15).toNat = if (s.getV x).toNat + (s.getV y).toNat > 255 then 1 else 0)

/-- R124: `add vX nn` writes the sum modulo 256 to its destination, VF included, and nothing else. -/
def Obligations.AddImmediateTouchesNoFlag : Prop :=
  ∀ (x : RegIdx) (nn : Byte) (s : State), ∃ t, exec (.addImm x nn) s = .next t ∧
    (t.getV x).toNat = ((s.getV x).toNat + nn.toNat) % 256 ∧ SameExcept (fun p => p = .reg x) s t

/-- R127, R128: `add vX vY` leaves the sum in its destination and the carry in VF; where the
destination is VF, the one `P_ADD_VF` says. Both values of the parameter are stated (D4, log entry 3);
both operands are read before either write. -/
def Obligations.AddRegisterSetsSumAndCarry : Prop :=
  ∀ (x y : RegIdx) (s : State), ∃ t, exec (.addReg x y) s = .next t ∧
    SameExcept (fun p => p = .reg x ∨ p = .reg 15) s t ∧
    (x ≠ 15 → (t.getV x).toNat = ((s.getV x).toNat + (s.getV y).toNat) % 256 ∧
      t.getV 15 = if (s.getV x).toNat + (s.getV y).toNat > 255 then 1 else 0) ∧
    (x = 15 → (t.getV 15).toNat =
      match Config.startup.addVf with
      | .carryWins => if (s.getV x).toNat + (s.getV y).toNat > 255 then 1 else 0
      | .sumWins => ((s.getV x).toNat + (s.getV y).toNat) % 256)

/-- R130: `and vX vY` writes the bitwise AND to its destination and nothing else. -/
def Obligations.AndRegisterWritesTheConjunction : Prop :=
  ∀ (x y : RegIdx) (s : State), ∃ t, exec (.andReg x y) s = .next t ∧
    (∀ k, (t.getV x).getLsbD k = ((s.getV x).getLsbD k && (s.getV y).getLsbD k)) ∧
    SameExcept (fun p => p = .reg x) s t

/-- R132, R133, R134: `rnd vX nn` draws one byte, a free value, and writes it masked: no bit outside
the mask is ever set, and every value inside it is possible. One draw is counted (log entry 6). -/
def Obligations.RandomIsAFreeByteUnderTheMask : Prop :=
  (∀ (x : RegIdx) (nn : Byte) (s : State), ∃ t, exec (.rnd x nn) s = .next t ∧
    t.getV x = Config.rand8 s.draws &&& nn ∧ t.getV x &&& ~~~nn = 0 ∧ t.draws = s.draws + 1 ∧
    SameExcept (fun p => p = .reg x ∨ p = .draws) s t) ∧
  (∀ (x : RegIdx) (nn v : Byte) (s : State), v &&& ~~~nn = 0 →
    ∃ r : Byte, (s.storeMasked r x nn).getV x = v)

/-! ### Index register and block load (spec/42_index_memory.md) -/

/-- R150, R153: `mov i nnn` writes the zero-extended address, `add i vX` the sum modulo 65536, and
neither writes anything else, VF included. -/
def Obligations.IndexInstructionsWriteTheIndexOnly : Prop :=
  (∀ (nnn : Addr) (s : State), ∃ t, exec (.movI nnn) s = .next t ∧
    t.i.toNat = nnn.toNat ∧ SameExcept (fun p => p = .index) s t) ∧
  (∀ (x : RegIdx) (s : State), ∃ t, exec (.addI x) s = .next t ∧
    t.i.toNat = (s.i.toNat + (s.getV x).toNat) % 65536 ∧ SameExcept (fun p => p = .index) s t)

/-- R156, R157, R158: `ldm vX` loads registers 0 to x inclusive from consecutive bytes at `I`, each
address masked, and changes nothing else, `I` included (D7, log entry 15). -/
def Obligations.BlockLoadFillsRegistersFromMemory : Prop :=
  ∀ (x : RegIdx) (s : State), ∃ t, exec (.ldm x) s = .next t ∧
    (∀ k : RegIdx, k ≤ x → t.getV k = s.mem.read ((s.i.toNat + k.val) &&& 0xFFF)) ∧
    SameExcept (fun p => ∃ k : RegIdx, k ≤ x ∧ p = .reg k) s t

/-! ### Control flow (spec/43_control_flow.md) -/

/-- R170, R173, R176: a skip moves `pc` two further when the operands are equal and leaves it otherwise,
`jmp nnn` sets it to the absolute address, and none of them changes anything else. -/
def Obligations.SkipsAndJumpWriteThePcOnly : Prop :=
  (∀ (x : RegIdx) (nn : Byte) (s : State), ∃ t, exec (.seImm x nn) s = .next t ∧
    t.pc.toNat = (s.pc.toNat + if s.getV x = nn then 2 else 0) % 65536 ∧
    SameExcept (fun p => p = .pc) s t) ∧
  (∀ (x y : RegIdx) (s : State), ∃ t, exec (.seReg x y) s = .next t ∧
    t.pc.toNat = (s.pc.toNat + if s.getV x = s.getV y then 2 else 0) % 65536 ∧
    SameExcept (fun p => p = .pc) s t) ∧
  (∀ (nnn : Addr) (s : State), ∃ t, exec (.jmp nnn) s = .next t ∧
    t.pc.toNat = nnn.toNat ∧ SameExcept (fun p => p = .pc) s t)

/-- R179: `call nnn` writes the return address, all 16 bits of `pc`, to the slot at `SP`, moves `SP` up
modulo the capacity and sets `pc`; nothing else changes. The capacity 16 is the spec's decision D19, the
16-bit entry D29 (log entry 14). -/
def Obligations.CallPushesTheReturnAddress : Prop :=
  ∀ (nnn : Addr) (s : State), ∃ t, exec (.call nnn) s = .next t ∧
    t.getSlot s.sp = s.pc ∧ t.sp.val = (s.sp.val + 1) % 16 ∧ t.pc.toNat = nnn.toNat ∧
    SameExcept (fun p => p = .slot s.sp ∨ p = .sp ∨ p = .pc) s t

/-- R182: `ret` moves `SP` down modulo the capacity and takes `pc` from the slot there, which it leaves;
nothing else changes. The capacity 16 is the spec's decision D19 (log entry 14). -/
def Obligations.ReturnPopsTheSlotBelow : Prop :=
  ∀ s : State, ∃ t, exec .ret s = .next t ∧ t.sp.val = (s.sp.val + 15) % 16 ∧
    t.pc = s.getSlot t.sp ∧ SameExcept (fun p => p = .sp ∨ p = .pc) s t

/-- R180, for the execute phases of 17 calls one after the other from `SP` 0 (the rule also allows other
instructions between them): the 17th wraps: it overwrites the entry that held the first return address,
leaves `SP` one up, and records nothing. The depth 16 is the spec's decision D19 (log entry 14). -/
def Obligations.SeventeenthCallOverwritesTheOldestEntry : Prop :=
  ∀ (s : State) (first : Addr) (rest : List Addr) (nnn : Addr), s.sp = 0 → rest.length = 15 →
    ∃ t u, execSeq ((first :: rest).map .call) s = .next t ∧ t.sp = 0 ∧ t.getSlot 0 = s.pc ∧
      exec (.call nnn) t = .next u ∧ u.getSlot 0 = t.pc ∧ u.sp = 1 ∧ u.status = s.status ∧
      SameExcept (fun p => p = .slot 0 ∨ p = .sp ∨ p = .pc) t u

/-- R185: a call whose target holds `ret` comes back: after the two steps `pc` is past the call, `SP`
is as before, at every stack pointer, and the slot holds the return address. -/
def Obligations.CallThenReturnComesBack : Prop :=
  ∀ (s : State) (nnn : Addr), s.status = .running → decode s.fetchWord = .instr (.call nnn) →
    s.wordAt (absoluteAddr nnn) = 0x00EE →
    ∃ t u, step s = .next t ∧ step t = .next u ∧ u.pc.toNat = (s.pc.toNat + 2) % 65536 ∧
      u.sp = s.sp ∧ u.getSlot s.sp = s.pc + 2

/-- R109: there is no halt instruction and no idle state: a jump to its own address executes as an
ordinary jump at every step, for ever. That no instruction ends a run, this jump included, is R108, the
spec's decision D23 (log entry 26); the count of cycles is R34, D9 (log entry 7). -/
def Obligations.JumpToSelfRunsForEver : Prop :=
  (∀ (i : Instr) (s : State), s.status = .running → decode s.fetchWord = .instr i →
    ∃ t, step s = .next t ∧ t.status = .running) ∧
  (∀ (s : State) (nnn : Addr) (n : Nat), s.status = .running →
    decode s.fetchWord = .instr (.jmp nnn) → absoluteAddr nnn = s.pc →
    ∃ t, Host.Core.run Sys2Proof.core n s = .next t ∧ t.cycles = s.cycles + n ∧
      SameExcept (fun p => p = .cycles ∨ p = .dt ∨ p = .st) s t)

/-! ### Timers (spec/44_timers.md) -/

/-- R200, R203: the timer instructions copy between a register and `DT` and change nothing else, and the
tick of their step comes after (R206, D10, log entry 8): the value read is `DT` before the tick, the
value set is counted down by it, by the exact count (D9, log entry 7). -/
def Obligations.TimerInstructionsCopyBeforeTheTick : Prop :=
  (∀ (x : RegIdx) (s : State), ∃ t, exec (.getDt x) s = .next t ∧ t.getV x = s.dt ∧
    SameExcept (fun p => p = .reg x) s t) ∧
  (∀ (x : RegIdx) (s : State), ∃ t, exec (.setDt x) s = .next t ∧ t.dt = s.getV x ∧
    SameExcept (fun p => p = .dt) s t) ∧
  (∀ (x : RegIdx) (s : State), s.status = .running → decode s.fetchWord = .instr (.getDt x) →
    ∃ t, step s = .next t ∧ t.getV x = s.dt) ∧
  (∀ (x : RegIdx) (s : State), s.status = .running → decode s.fetchWord = .instr (.setDt x) →
    ∃ t, step s = .next t ∧
      t.dt.toNat = (s.getV x).toNat - tickCount Config.startup s.cycles)

/-- R206: the tick adds one cycle, takes from both timers the boundaries that cycle crossed, clamped at
zero, and changes nothing else (D9). -/
def Obligations.TickCountsBothTimersDown : Prop :=
  ∀ (cfg : Config) (s : State),
    (s.tickWith cfg).cycles = s.cycles + 1 ∧
    (s.tickWith cfg).dt.toNat = s.dt.toNat - (ticks cfg (s.cycles + 1) - ticks cfg s.cycles) ∧
    (s.tickWith cfg).st.toNat = s.st.toNat - (ticks cfg (s.cycles + 1) - ticks cfg s.cycles) ∧
    SameExcept (fun p => p = .cycles ∨ p = .dt ∨ p = .st) s (s.tickWith cfg)

/-- R207: the tick count in integers is the source's floor of the elapsed milliseconds times 60 over
1000, evaluated exactly (D9, log entry 7). -/
def Obligations.TicksAreTheExactFloorOfLogicalTime : Prop :=
  ∀ (cfg : Config) (c : Nat), (ticks cfg c : ℤ) = ⌊logicalMs cfg c * 60 / 1000⌋

/-- R208: a tick clamps both timers at zero, gives both the same count and raises neither; between set
operations a timer never rises. -/
def Obligations.TimersNeverRiseBetweenSets : Prop :=
  (∀ (cfg : Config) (s : State),
    (s.tickWith cfg).dt.toNat = max 0 ((s.dt.toNat : ℤ) - tickCount cfg s.cycles) ∧
    (s.tickWith cfg).st.toNat = max 0 ((s.st.toNat : ℤ) - tickCount cfg s.cycles)) ∧
  (∀ (s t : State), step s = .next t → t.st.toNat ≤ s.st.toNat ∧
    ((∀ x, decode s.fetchWord ≠ .instr (.setDt x)) → t.dt.toNat ≤ s.dt.toNat))

/-- R210: ticks never go back; one cycle crosses at most the ceiling of 60 / (FPS * IPF) boundaries,
and at most one where FPS * IPF is 60 or more; a logical second of cycles crosses exactly 60 (D9). -/
def Obligations.SixtyTicksInEveryLogicalSecond : Prop :=
  ∀ (cfg : Config) (c : Nat),
    ticks cfg c ≤ ticks cfg (c + 1) ∧
    tickCount cfg c ≤ (60 + ((cfg.fps : Nat) * (cfg.ipf : Nat) - 1)) / ((cfg.fps : Nat) * (cfg.ipf : Nat)) ∧
    (60 ≤ (cfg.fps : Nat) * (cfg.ipf : Nat) → tickCount cfg c ≤ 1) ∧
    ticks cfg (c + (cfg.fps : Nat) * (cfg.ipf : Nat)) = ticks cfg c + 60

/-- R210: over one logical second of ticks, from any cycle count, each timer loses 60, clamped at zero,
at every frame rate (D9). -/
def Obligations.TimersLoseSixtyInALogicalSecond : Prop :=
  ∀ (cfg : Config) (s : State),
    let t := (State.tickWith cfg)^[(cfg.fps : Nat) * (cfg.ipf : Nat)] s
    t.dt.toNat = s.dt.toNat - 60 ∧ t.st.toNat = s.st.toNat - 60 ∧
      t.cycles = s.cycles + (cfg.fps : Nat) * (cfg.ipf : Nat)

/-- R211: each step takes 1000 / (FPS * IPF) logical milliseconds and a frame 1000 / FPS; only the tick
reads logical time, through `cycles`. That logical time is a function of `cycles`, and that a step adds
one cycle, is R34 and R206 under the spec's decision D9 (log entry 7); that a faulting step, which the
premise on the status shuts out, adds none is R106, D28 (log entry 22). Two executions that are compared
draw the same random byte (log entry 6). -/
def Obligations.LogicalTimeOfAStepAndAFrame : Prop :=
  (∀ (cfg : Config) (c : Nat),
    logicalMs cfg (c + 1) - logicalMs cfg c = 1000 / ((cfg.fps : ℚ) * (cfg.ipf : ℚ)) ∧
    logicalMs cfg (c + (cfg.ipf : Nat)) - logicalMs cfg c = 1000 / (cfg.fps : ℚ)) ∧
  (∀ s t : State, step s = .next t → t.status = .running → t.cycles = s.cycles + 1) ∧
  (∀ (i : Instr) (s t : State) (c : Nat), exec i s = .next t →
    exec i { s with cycles := c } = .next { t with cycles := c })

/-- R209: a frame of a running machine is IPF steps, fewer only where a step faults, after which the run
has ended (D22, log entry 23). The count of cycles is R34 and R206 under D9 (log entry 7); that the
faulting step, the last of its k + 1, adds no cycle is R106, D28 (log entry 22), its next state log
entry 9. -/
def Obligations.AFrameIsIpfSteps : Prop :=
  ∀ (cfg : Config) (s : State), s.status = .running →
    ∃ t, frameWith cfg s = .next t ∧
      (t.status = .running →
        Host.Core.run Sys2Proof.core (cfg.ipf : Nat) s = .next t ∧
        t.cycles = s.cycles + (cfg.ipf : Nat)) ∧
      (t.status ≠ .running → ∃ k, k < (cfg.ipf : Nat) ∧ t.cycles = s.cycles + k ∧
        Host.Core.run Sys2Proof.core (k + 1) s = .next t)

/-! ### Display (spec/45_display.md) -/

/-- R230: `cls` clears every byte of the framebuffer and changes nothing else, VF included. -/
def Obligations.ClearScreenClearsTheFramebufferOnly : Prop :=
  ∀ s : State, ∃ t, exec .cls s = .next t ∧ (∀ j : Fin 256, t.fb[j.val] = 0) ∧
    SameExcept (fun p => ∃ j, p = .fbByte j) s t

/-- R234: the byte operations of a sprite row are the rule's expressions on unbounded integers, masked
to 8 bits, for every shift from 0 to 7 (the expressions are the spec's reading: D6, log entry 16). -/
def Obligations.RowByteOperationsAreTheRulesExpressions : Prop :=
  ∀ (hi lo new : Byte) (sh : Nat), sh < 8 →
    (rowWindow hi lo sh).toNat = ((hi.toNat <<< sh) ||| (lo.toNat >>> (8 - sh))) &&& 0xFF ∧
    (rowFirst hi new sh).toNat = (hi.toNat &&& (0xFF - (0xFF >>> sh))) ||| (new.toNat >>> sh) ∧
    (rowSecond lo new sh).toNat
      = (lo.toNat &&& (0xFF >>> sh)) ||| ((new.toNat <<< (8 - sh)) &&& 0xFF)

/-- R238: the collision test on a window and its XOR with a source byte is a set source bit on a set
pixel. -/
def Obligations.CollisionIsASetBitOnASetPixel : Prop :=
  ∀ old src : Byte, collides old (old ^^^ src) = ((old &&& src) != 0)

/-- R235, R236, R237: `drw` XORs the sprite's set bits, each on the pixel its linear offset modulo 2048
gives, into the framebuffer; VF is 1 exactly when one of them meets a pixel that was on; nothing else
changes. The offset of each row is spelled out. Stated for the start-up value of `P_FB_TAIL`, whichever
it is (D5, D6, log entries 4, 16). -/
def Obligations.DrawXorsTheSpriteAndReportsCollision : Prop :=
  ∀ (x y : RegIdx) (n : BitVec 4) (s : State), ∃ t, exec (.drw x y n) s = .next t ∧
    (∀ r, spriteOffset (s.getV x) (s.getV y) r
      = (((s.getV y).toNat + r) * 64 + (s.getV x).toNat) % 2048) ∧
    (∀ j, j < pixelCount → (t.fb.pixel j = true ↔
      ¬ (s.fb.pixel j = true ↔
        s.spriteLights Config.startup.fbTail (s.getV x) (s.getV y) n.toNat j))) ∧
    ((t.getV 15 = 1 ∧ ∃ j, j < pixelCount ∧ s.fb.pixel j = true ∧
        s.spriteLights Config.startup.fbTail (s.getV x) (s.getV y) n.toNat j) ∨
     (t.getV 15 = 0 ∧ ∀ j, j < pixelCount → s.fb.pixel j = true →
        ¬ s.spriteLights Config.startup.fbTail (s.getV x) (s.getV y) n.toNat j)) ∧
    SameExcept (fun p => p = .reg 15 ∨ ∃ j, p = .fbByte j) s t

/-- R240: two identical draws in a row leave the framebuffer as it was, and the second sets VF exactly
when some set bit of the sprite lands on a pixel that was off before the first (D5, D6). -/
def Obligations.DrawingTwiceRestoresTheFramebuffer : Prop :=
  ∀ (x y : RegIdx) (n : BitVec 4) (s t t' : State), exec (.drw x y n) s = .next t →
    t'.fb = t.fb → t'.mem = s.mem → t'.i = s.i → t'.getV x = s.getV x → t'.getV y = s.getV y →
    ∃ u, exec (.drw x y n) t' = .next u ∧ u.fb = s.fb ∧
      ((u.getV 15 = 1 ∧ ∃ j, j < pixelCount ∧ s.fb.pixel j = false ∧
          s.spriteLights Config.startup.fbTail (s.getV x) (s.getV y) n.toNat j) ∨
       (u.getV 15 = 0 ∧ ∀ j, j < pixelCount → s.fb.pixel j = false →
          ¬ s.spriteLights Config.startup.fbTail (s.getV x) (s.getV y) n.toNat j))

/-- R233: byte 256 of the framebuffer, which only the last row reaches: under `wrap` it is byte 0,
under `drop` it reads 0 and a write to it is lost; below 256 a byte is itself under both (D5). -/
def Obligations.FramebufferTailFollowsItsParameter : Prop :=
  ∀ (fb : Framebuffer) (b : Byte) (tail : FbTail) (j k : Nat) (hj : j < 256), k ≤ 256 →
    fb.get tail j = fb[j] ∧ fb.get .wrap 256 = fb[0] ∧ fb.get .drop 256 = 0 ∧
    (fb.put tail k b)[j] = if j = k ∨ (k = 256 ∧ tail = .wrap ∧ j = 0) then b else fb[j]
end

