-- ==== Sys2Proof/Laws/State.lean ====
section
/-! SUPPORT. One lemma per field of the state per update, so that no later proof unfolds a record
update; then what the accessors give after an update. -/

namespace Sys2Proof.Machine

variable (s : State)

/-! ### `setV` -/

@[simp] theorem setV_mem (r : RegIdx) (b : Byte) : (s.setV r b).mem = s.mem := rfl
@[simp] theorem setV_v (r : RegIdx) (b : Byte) : (s.setV r b).v = s.v.set r.val b := rfl
@[simp] theorem setV_i (r : RegIdx) (b : Byte) : (s.setV r b).i = s.i := rfl
@[simp] theorem setV_pc (r : RegIdx) (b : Byte) : (s.setV r b).pc = s.pc := rfl
@[simp] theorem setV_sp (r : RegIdx) (b : Byte) : (s.setV r b).sp = s.sp := rfl
@[simp] theorem setV_stack (r : RegIdx) (b : Byte) : (s.setV r b).stack = s.stack := rfl
@[simp] theorem setV_dt (r : RegIdx) (b : Byte) : (s.setV r b).dt = s.dt := rfl
@[simp] theorem setV_st (r : RegIdx) (b : Byte) : (s.setV r b).st = s.st := rfl
@[simp] theorem setV_fb (r : RegIdx) (b : Byte) : (s.setV r b).fb = s.fb := rfl
@[simp] theorem setV_cycles (r : RegIdx) (b : Byte) : (s.setV r b).cycles = s.cycles := rfl
@[simp] theorem setV_status (r : RegIdx) (b : Byte) : (s.setV r b).status = s.status := rfl
@[simp] theorem setV_draws (r : RegIdx) (b : Byte) : (s.setV r b).draws = s.draws := rfl

/-! ### `setI` -/

@[simp] theorem setI_mem (a : Word) : (s.setI a).mem = s.mem := rfl
@[simp] theorem setI_v (a : Word) : (s.setI a).v = s.v := rfl
@[simp] theorem setI_i (a : Word) : (s.setI a).i = a := rfl
@[simp] theorem setI_pc (a : Word) : (s.setI a).pc = s.pc := rfl
@[simp] theorem setI_sp (a : Word) : (s.setI a).sp = s.sp := rfl
@[simp] theorem setI_stack (a : Word) : (s.setI a).stack = s.stack := rfl
@[simp] theorem setI_dt (a : Word) : (s.setI a).dt = s.dt := rfl
@[simp] theorem setI_st (a : Word) : (s.setI a).st = s.st := rfl
@[simp] theorem setI_fb (a : Word) : (s.setI a).fb = s.fb := rfl
@[simp] theorem setI_cycles (a : Word) : (s.setI a).cycles = s.cycles := rfl
@[simp] theorem setI_status (a : Word) : (s.setI a).status = s.status := rfl
@[simp] theorem setI_draws (a : Word) : (s.setI a).draws = s.draws := rfl

/-! ### `setPc` -/

@[simp] theorem setPc_mem (a : Word) : (s.setPc a).mem = s.mem := rfl
@[simp] theorem setPc_v (a : Word) : (s.setPc a).v = s.v := rfl
@[simp] theorem setPc_i (a : Word) : (s.setPc a).i = s.i := rfl
@[simp] theorem setPc_pc (a : Word) : (s.setPc a).pc = a := rfl
@[simp] theorem setPc_sp (a : Word) : (s.setPc a).sp = s.sp := rfl
@[simp] theorem setPc_stack (a : Word) : (s.setPc a).stack = s.stack := rfl
@[simp] theorem setPc_dt (a : Word) : (s.setPc a).dt = s.dt := rfl
@[simp] theorem setPc_st (a : Word) : (s.setPc a).st = s.st := rfl
@[simp] theorem setPc_fb (a : Word) : (s.setPc a).fb = s.fb := rfl
@[simp] theorem setPc_cycles (a : Word) : (s.setPc a).cycles = s.cycles := rfl
@[simp] theorem setPc_status (a : Word) : (s.setPc a).status = s.status := rfl
@[simp] theorem setPc_draws (a : Word) : (s.setPc a).draws = s.draws := rfl

/-! ### `setDt` -/

@[simp] theorem setDt_mem (b : Byte) : (s.setDt b).mem = s.mem := rfl
@[simp] theorem setDt_v (b : Byte) : (s.setDt b).v = s.v := rfl
@[simp] theorem setDt_i (b : Byte) : (s.setDt b).i = s.i := rfl
@[simp] theorem setDt_pc (b : Byte) : (s.setDt b).pc = s.pc := rfl
@[simp] theorem setDt_sp (b : Byte) : (s.setDt b).sp = s.sp := rfl
@[simp] theorem setDt_stack (b : Byte) : (s.setDt b).stack = s.stack := rfl
@[simp] theorem setDt_dt (b : Byte) : (s.setDt b).dt = b := rfl
@[simp] theorem setDt_st (b : Byte) : (s.setDt b).st = s.st := rfl
@[simp] theorem setDt_fb (b : Byte) : (s.setDt b).fb = s.fb := rfl
@[simp] theorem setDt_cycles (b : Byte) : (s.setDt b).cycles = s.cycles := rfl
@[simp] theorem setDt_status (b : Byte) : (s.setDt b).status = s.status := rfl
@[simp] theorem setDt_draws (b : Byte) : (s.setDt b).draws = s.draws := rfl

/-! ### `setFb` -/

@[simp] theorem setFb_mem (fb : Framebuffer) : (s.setFb fb).mem = s.mem := rfl
@[simp] theorem setFb_v (fb : Framebuffer) : (s.setFb fb).v = s.v := rfl
@[simp] theorem setFb_i (fb : Framebuffer) : (s.setFb fb).i = s.i := rfl
@[simp] theorem setFb_pc (fb : Framebuffer) : (s.setFb fb).pc = s.pc := rfl
@[simp] theorem setFb_sp (fb : Framebuffer) : (s.setFb fb).sp = s.sp := rfl
@[simp] theorem setFb_stack (fb : Framebuffer) : (s.setFb fb).stack = s.stack := rfl
@[simp] theorem setFb_dt (fb : Framebuffer) : (s.setFb fb).dt = s.dt := rfl
@[simp] theorem setFb_st (fb : Framebuffer) : (s.setFb fb).st = s.st := rfl
@[simp] theorem setFb_fb (fb : Framebuffer) : (s.setFb fb).fb = fb := rfl
@[simp] theorem setFb_cycles (fb : Framebuffer) : (s.setFb fb).cycles = s.cycles := rfl
@[simp] theorem setFb_status (fb : Framebuffer) : (s.setFb fb).status = s.status := rfl
@[simp] theorem setFb_draws (fb : Framebuffer) : (s.setFb fb).draws = s.draws := rfl

/-! ### `setFlag` -/

@[simp] theorem setFlag_mem (c : Bool) : (s.setFlag c).mem = s.mem := rfl
@[simp] theorem setFlag_v (c : Bool) : (s.setFlag c).v = s.v.set 15 (flagByte c) := rfl
@[simp] theorem setFlag_i (c : Bool) : (s.setFlag c).i = s.i := rfl
@[simp] theorem setFlag_pc (c : Bool) : (s.setFlag c).pc = s.pc := rfl
@[simp] theorem setFlag_sp (c : Bool) : (s.setFlag c).sp = s.sp := rfl
@[simp] theorem setFlag_stack (c : Bool) : (s.setFlag c).stack = s.stack := rfl
@[simp] theorem setFlag_dt (c : Bool) : (s.setFlag c).dt = s.dt := rfl
@[simp] theorem setFlag_st (c : Bool) : (s.setFlag c).st = s.st := rfl
@[simp] theorem setFlag_fb (c : Bool) : (s.setFlag c).fb = s.fb := rfl
@[simp] theorem setFlag_cycles (c : Bool) : (s.setFlag c).cycles = s.cycles := rfl
@[simp] theorem setFlag_status (c : Bool) : (s.setFlag c).status = s.status := rfl
@[simp] theorem setFlag_draws (c : Bool) : (s.setFlag c).draws = s.draws := rfl

/-! ### `advancePc` -/

@[simp] theorem advancePc_mem : (s.advancePc).mem = s.mem := rfl
@[simp] theorem advancePc_v : (s.advancePc).v = s.v := rfl
@[simp] theorem advancePc_i : (s.advancePc).i = s.i := rfl
@[simp] theorem advancePc_pc : (s.advancePc).pc = s.pc + 2 := rfl
@[simp] theorem advancePc_sp : (s.advancePc).sp = s.sp := rfl
@[simp] theorem advancePc_stack : (s.advancePc).stack = s.stack := rfl
@[simp] theorem advancePc_dt : (s.advancePc).dt = s.dt := rfl
@[simp] theorem advancePc_st : (s.advancePc).st = s.st := rfl
@[simp] theorem advancePc_fb : (s.advancePc).fb = s.fb := rfl
@[simp] theorem advancePc_cycles : (s.advancePc).cycles = s.cycles := rfl
@[simp] theorem advancePc_status : (s.advancePc).status = s.status := rfl
@[simp] theorem advancePc_draws : (s.advancePc).draws = s.draws := rfl

/-! ### `pushPc` -/

@[simp] theorem pushPc_mem : (s.pushPc).mem = s.mem := rfl
@[simp] theorem pushPc_v : (s.pushPc).v = s.v := rfl
@[simp] theorem pushPc_i : (s.pushPc).i = s.i := rfl
@[simp] theorem pushPc_pc : (s.pushPc).pc = s.pc := rfl
@[simp] theorem pushPc_sp : (s.pushPc).sp = s.sp + 1 := rfl
@[simp] theorem pushPc_stack : (s.pushPc).stack = s.stack.set s.sp.val s.pc := rfl
@[simp] theorem pushPc_dt : (s.pushPc).dt = s.dt := rfl
@[simp] theorem pushPc_st : (s.pushPc).st = s.st := rfl
@[simp] theorem pushPc_fb : (s.pushPc).fb = s.fb := rfl
@[simp] theorem pushPc_cycles : (s.pushPc).cycles = s.cycles := rfl
@[simp] theorem pushPc_status : (s.pushPc).status = s.status := rfl
@[simp] theorem pushPc_draws : (s.pushPc).draws = s.draws := rfl

/-! ### `popPc` -/

@[simp] theorem popPc_mem : (s.popPc).mem = s.mem := rfl
@[simp] theorem popPc_v : (s.popPc).v = s.v := rfl
@[simp] theorem popPc_i : (s.popPc).i = s.i := rfl
@[simp] theorem popPc_pc : (s.popPc).pc = s.getSlot (s.sp - 1) := rfl
@[simp] theorem popPc_sp : (s.popPc).sp = s.sp - 1 := rfl
@[simp] theorem popPc_stack : (s.popPc).stack = s.stack := rfl
@[simp] theorem popPc_dt : (s.popPc).dt = s.dt := rfl
@[simp] theorem popPc_st : (s.popPc).st = s.st := rfl
@[simp] theorem popPc_fb : (s.popPc).fb = s.fb := rfl
@[simp] theorem popPc_cycles : (s.popPc).cycles = s.cycles := rfl
@[simp] theorem popPc_status : (s.popPc).status = s.status := rfl
@[simp] theorem popPc_draws : (s.popPc).draws = s.draws := rfl

/-! ### `countDraw` -/

@[simp] theorem countDraw_mem : (s.countDraw).mem = s.mem := rfl
@[simp] theorem countDraw_v : (s.countDraw).v = s.v := rfl
@[simp] theorem countDraw_i : (s.countDraw).i = s.i := rfl
@[simp] theorem countDraw_pc : (s.countDraw).pc = s.pc := rfl
@[simp] theorem countDraw_sp : (s.countDraw).sp = s.sp := rfl
@[simp] theorem countDraw_stack : (s.countDraw).stack = s.stack := rfl
@[simp] theorem countDraw_dt : (s.countDraw).dt = s.dt := rfl
@[simp] theorem countDraw_st : (s.countDraw).st = s.st := rfl
@[simp] theorem countDraw_fb : (s.countDraw).fb = s.fb := rfl
@[simp] theorem countDraw_cycles : (s.countDraw).cycles = s.cycles := rfl
@[simp] theorem countDraw_status : (s.countDraw).status = s.status := rfl
@[simp] theorem countDraw_draws : (s.countDraw).draws = s.draws + 1 := rfl

/-! ### `raiseInvalidOpcode` -/

@[simp] theorem raiseInvalidOpcode_mem (a w : Word) : (s.raiseInvalidOpcode a w).mem = s.mem := rfl
@[simp] theorem raiseInvalidOpcode_v (a w : Word) : (s.raiseInvalidOpcode a w).v = s.v := rfl
@[simp] theorem raiseInvalidOpcode_i (a w : Word) : (s.raiseInvalidOpcode a w).i = s.i := rfl
@[simp] theorem raiseInvalidOpcode_pc (a w : Word) : (s.raiseInvalidOpcode a w).pc = s.pc := rfl
@[simp] theorem raiseInvalidOpcode_sp (a w : Word) : (s.raiseInvalidOpcode a w).sp = s.sp := rfl
@[simp] theorem raiseInvalidOpcode_stack (a w : Word) : (s.raiseInvalidOpcode a w).stack = s.stack := rfl
@[simp] theorem raiseInvalidOpcode_dt (a w : Word) : (s.raiseInvalidOpcode a w).dt = s.dt := rfl
@[simp] theorem raiseInvalidOpcode_st (a w : Word) : (s.raiseInvalidOpcode a w).st = s.st := rfl
@[simp] theorem raiseInvalidOpcode_fb (a w : Word) : (s.raiseInvalidOpcode a w).fb = s.fb := rfl
@[simp] theorem raiseInvalidOpcode_cycles (a w : Word) : (s.raiseInvalidOpcode a w).cycles = s.cycles := rfl
@[simp] theorem raiseInvalidOpcode_status (a w : Word) : (s.raiseInvalidOpcode a w).status = .faulted ⟨a, w⟩ := rfl
@[simp] theorem raiseInvalidOpcode_draws (a w : Word) : (s.raiseInvalidOpcode a w).draws = s.draws := rfl

/-! ### `tickWith` -/

@[simp] theorem tickWith_mem (cfg : Config) : (s.tickWith cfg).mem = s.mem := rfl
@[simp] theorem tickWith_v (cfg : Config) : (s.tickWith cfg).v = s.v := rfl
@[simp] theorem tickWith_i (cfg : Config) : (s.tickWith cfg).i = s.i := rfl
@[simp] theorem tickWith_pc (cfg : Config) : (s.tickWith cfg).pc = s.pc := rfl
@[simp] theorem tickWith_sp (cfg : Config) : (s.tickWith cfg).sp = s.sp := rfl
@[simp] theorem tickWith_stack (cfg : Config) : (s.tickWith cfg).stack = s.stack := rfl
@[simp] theorem tickWith_dt (cfg : Config) : (s.tickWith cfg).dt = countDown (tickCount cfg s.cycles) s.dt := rfl
@[simp] theorem tickWith_st (cfg : Config) : (s.tickWith cfg).st = countDown (tickCount cfg s.cycles) s.st := rfl
@[simp] theorem tickWith_fb (cfg : Config) : (s.tickWith cfg).fb = s.fb := rfl
@[simp] theorem tickWith_cycles (cfg : Config) : (s.tickWith cfg).cycles = s.cycles + 1 := rfl
@[simp] theorem tickWith_status (cfg : Config) : (s.tickWith cfg).status = s.status := rfl
@[simp] theorem tickWith_draws (cfg : Config) : (s.tickWith cfg).draws = s.draws := rfl

/-! ### Accessors after an update -/

@[simp] theorem getV_setV_self (r : RegIdx) (b : Byte) : (s.setV r b).getV r = b := by
  simp [State.getV]

theorem getV_setV_of_ne {r q : RegIdx} (h : q ≠ r) (b : Byte) :
    (s.setV r b).getV q = s.getV q := by
  have : r.val ≠ q.val := fun e => h (Fin.ext e.symm)
  simp [State.getV, this]

theorem getV_setV (r q : RegIdx) (b : Byte) :
    (s.setV r b).getV q = if q = r then b else s.getV q := by
  split
  next h => subst h; exact getV_setV_self s q b
  next h => exact getV_setV_of_ne s h b

@[simp] theorem getV_setFlag_flagReg (c : Bool) : (s.setFlag c).getV 15 = flagByte c :=
  getV_setV_self s 15 _

theorem getV_setFlag_of_ne {q : RegIdx} (h : q ≠ 15) (c : Bool) :
    (s.setFlag c).getV q = s.getV q :=
  getV_setV_of_ne s h _

/-- Reading registers looks at `v` alone. -/
theorem getV_congr {s t : State} (h : t.v = s.v) (r : RegIdx) : t.getV r = s.getV r := by
  simp [State.getV, h]

/-- Reading stack slots looks at `stack` alone. -/
theorem getSlot_congr {s t : State} (h : t.stack = s.stack) (k : Fin stackDepth) :
    t.getSlot k = s.getSlot k := by
  simp [State.getSlot, h]

/-- Reading memory looks at `mem` alone. -/
theorem memRead_congr {s t : State} (h : t.mem = s.mem) (a : Nat) : t.memRead a = s.memRead a := by
  simp [State.memRead, h]

/-- The word at an address depends on memory alone. -/
theorem wordAt_congr {s t : State} (h : t.mem = s.mem) (a : Word) : t.wordAt a = s.wordAt a := by
  simp [State.wordAt, memRead_congr h]

/-- A byte addressed through `I` depends on memory and `I` alone. -/
theorem indexByte_congr {s t : State} (hm : t.mem = s.mem) (hi : t.i = s.i) (k : Nat) :
    t.indexByte k = s.indexByte k := by
  simp [State.indexByte, hi, memRead_congr hm]

/-- The push writes the slot at SP. -/
@[simp] theorem getSlot_pushPc : s.pushPc.getSlot s.sp = s.pc := by
  simp [State.getSlot]

/-- The push leaves every other slot. -/
theorem getSlot_pushPc_of_ne {k : Fin stackDepth} (h : k ≠ s.sp) :
    s.pushPc.getSlot k = s.getSlot k := by
  have : s.sp.val ≠ k.val := fun e => h (Fin.ext e.symm)
  simp [State.getSlot, this]

/-- A skip changes `pc` alone. -/
theorem skipIf_eq (c : Bool) : s.skipIf c = s.setPc (if c then s.pc + 2 else s.pc) := by
  cases c <;> rfl

end Sys2Proof.Machine
end

