-- ==== Sys2Proof/Laws/Display.lean ====
section
/-! SUPPORT. What one sprite row does to each pixel, whatever bytes it straddles (R234), and what the
rows of a sprite leave alone. -/

namespace Sys2Proof.Machine

/-! ### Bytes of the framebuffer -/

theorem get_of_lt (tail : FbTail) (fb : Framebuffer) {j : Nat} (h : j < fbBytes) :
    fb.get tail j = fb[j] := dif_pos h

/-- Inside the framebuffer a byte reads the same under both values of `P_FB_TAIL`. -/
theorem get_tail (tail tail' : FbTail) (fb : Framebuffer) {j : Nat} (h : j < fbBytes) :
    fb.get tail j = fb.get tail' j := by
  rw [get_of_lt tail fb h, get_of_lt tail' fb h]

/-- A read after a write inside the framebuffer. -/
theorem get_put (tail : FbTail) (fb : Framebuffer) {j k : Nat} (b : Byte) (hj : j < fbBytes)
    (hk : k < fbBytes) : (fb.put tail k b).get .drop j = if j = k then b else fb.get .drop j := by
  simp only [get_of_lt _ _ hj, Framebuffer.put, dif_pos hk, Vector.getElem_set, eq_comm]

/-- A read inside the framebuffer after a write to byte index 256 (R233). -/
theorem get_put_tail (tail : FbTail) (fb : Framebuffer) {j : Nat} (b : Byte) (hj : j < fbBytes) :
    (fb.put tail fbBytes b).get .drop j
      = if tail = .wrap ∧ j = 0 then b else fb.get .drop j := by
  cases tail <;> simp [get_of_lt _ _ hj, Framebuffer.put, Vector.getElem_set, eq_comm]

/-! ### Bits of the two bytes written back -/

/-- The first byte written back is the old one with the source bits from pixel `sh` on XORed in. -/
theorem rowFirst_bit (hi lo src : Byte) {sh i : Nat} (hs : sh < 8) (hi8 : i < 8) :
    (rowFirst hi (rowWindow hi lo sh ^^^ src) sh).getLsbD (7 - i)
      = (hi.getLsbD (7 - i) ^^ (decide (sh ≤ i) && src.getLsbD (7 - (i - sh)))) := by
  interval_cases sh <;> interval_cases i <;> simp [rowFirst, rowWindow]

/-- The second byte written back is the old one with the other source bits XORed in. -/
theorem rowSecond_bit (hi lo src : Byte) {sh i : Nat} (hs : sh < 8) (h0 : sh ≠ 0) (hi8 : i < 8) :
    (rowSecond lo (rowWindow hi lo sh ^^^ src) sh).getLsbD (7 - i)
      = (lo.getLsbD (7 - i) ^^ (decide (i < sh) && src.getLsbD (7 - (i + 8 - sh)))) := by
  interval_cases sh <;> interval_cases i <;> simp_all [rowSecond, rowWindow]

/-! ### Pixels of one row -/

/-- XOR of two bits, the second of which says `p`. -/
theorem xor_iff {a b : Bool} {p : Prop} (h : b = true ↔ p) :
    (a ^^ b) = true ↔ ¬ (a = true ↔ p) := by
  rw [← h]; cases a <;> cases b <;> decide

/-- Which pixel of the row lies on bit `7 - i` of byte `c`: in the first byte the pixels from `sh` on,
in the second (byte 0 where the last row wraps) the rest, elsewhere none (R233, R234). -/
theorem rowLights_iff (tail : FbTail) (src : Byte) {b sh c i : Nat} (hb : b < fbBytes) (hs : sh < 8)
    (hc : c < fbBytes) (hi : i < 8) :
    rowLights tail (8 * b + sh) src (8 * c + i) ↔
      (c = b ∧ sh ≤ i ∧ src.getLsbD (7 - (i - sh)) = true) ∨
      ((c = b + 1 ∨ (tail = .wrap ∧ b + 1 = fbBytes ∧ c = 0)) ∧ i < sh ∧
        src.getLsbD (7 - (i + 8 - sh)) = true) := by
  simp only [fbBytes] at *
  constructor
  · rintro ⟨k, hk, hbit, hland⟩
    rcases hland with h | ⟨ht, h⟩
    · by_cases hcb : c = b
      · have : k = i - sh := by omega
        exact .inl ⟨hcb, by omega, this ▸ hbit⟩
      · have : k = i + 8 - sh := by omega
        exact .inr ⟨.inl (by omega), by omega, this ▸ hbit⟩
    · simp only [pixelCount] at h
      have : k = i + 8 - sh := by omega
      exact .inr ⟨.inr ⟨ht, by omega, by omega⟩, by omega, this ▸ hbit⟩
  · rintro (⟨hcb, hle, hbit⟩ | ⟨hc1, hlt, hbit⟩)
    · exact ⟨i - sh, by omega, hbit, .inl (by omega)⟩
    · refine ⟨i + 8 - sh, by omega, hbit, ?_⟩
      rcases hc1 with hc1 | ⟨ht, hb1, hc0⟩
      · exact .inl (by omega)
      · exact .inr ⟨ht, by simp only [pixelCount]; omega⟩

/-- The byte the second half of a row is written to, and the one it reads: byte `b + 1`, or byte 0
where the last one wraps. -/
theorem get_second (tail : FbTail) (fb : Framebuffer) {b c : Nat}
    (hc : c < fbBytes) (h : c = b + 1 ∨ (tail = .wrap ∧ b + 1 = fbBytes ∧ c = 0)) :
    fb.get tail (b + 1) = fb.get .drop c := by
  rcases h with rfl | ⟨rfl, hb1, rfl⟩
  · exact get_tail _ _ _ hc
  · rw [hb1]; rfl

/-- A read after the write to the second byte of a row. -/
theorem get_put_second (tail : FbTail) (fb : Framebuffer) (x : Byte) {b c : Nat} (hb : b < fbBytes)
    (hc : c < fbBytes) : (fb.put tail (b + 1) x).get .drop c
      = if c = b + 1 ∨ (tail = .wrap ∧ b + 1 = fbBytes ∧ c = 0) then x else fb.get .drop c := by
  by_cases hb1 : b + 1 = fbBytes
  · have hcb : c ≠ b + 1 := by omega
    rw [hb1, get_put_tail tail fb x hc]
    simp [hb1 ▸ hcb]
  · rw [get_put tail fb x hc (by simp only [fbBytes] at *; omega)]
    simp [hb1]

/-- One row XORs its source bits into the pixels they land on, and changes no other pixel (R234):
a pixel is on after the row exactly when it was on or is lit by the row, but not both. -/
theorem drawRow_pixel (tail : FbTail) (fb : Framebuffer) (src : Byte) {off j : Nat}
    (hoff : off < pixelCount) (hj : j < pixelCount) :
    (drawRow tail fb off src).1.pixel j = true ↔
      ¬ (fb.pixel j = true ↔ rowLights tail off src j) := by
  simp only [pixelCount] at hoff hj
  obtain ⟨b, sh, hb, hs, rfl⟩ : ∃ b sh, b < 256 ∧ sh < 8 ∧ off = 8 * b + sh :=
    ⟨off / 8, off % 8, by omega, by omega, by omega⟩
  obtain ⟨c, i, hc, hi, rfl⟩ : ∃ c i, c < 256 ∧ i < 8 ∧ j = 8 * c + i :=
    ⟨j / 8, j % 8, by omega, by omega, by omega⟩
  have hbd : (8 * b + sh) / 8 = b := by omega
  have hbm : (8 * b + sh) % 8 = sh := by omega
  have hcd : (8 * c + i) / 8 = c := by omega
  have hcm : (8 * c + i) % 8 = i := by omega
  rw [rowLights_iff tail src hb hs hc hi]
  simp only [drawRow, Framebuffer.pixel, hbd, hbm, hcd, hcm]
  have hfirst := rowFirst_bit (fb.get tail b) (fb.get tail (b + 1)) src hs hi
  rw [get_tail tail .drop fb hb] at hfirst ⊢
  by_cases h0 : sh = 0
  · subst h0
    simp only [if_pos]
    rw [get_put tail fb _ hc hb]
    by_cases hcb : c = b
    · subst hcb
      rw [if_pos rfl, hfirst]
      exact xor_iff (by simp)
    · simp [hcb]
  · simp only [if_neg h0]
    have hsecond := rowSecond_bit (fb.get .drop b) (fb.get tail (b + 1)) src hs h0 hi
    rw [get_put_second tail _ _ hb hc, get_put tail fb _ hc hb]
    by_cases h2 : c = b + 1 ∨ (tail = .wrap ∧ b + 1 = fbBytes ∧ c = 0)
    · have hcb : c ≠ b := by simp only [fbBytes] at h2; omega
      rw [if_pos h2, hsecond, get_second tail fb hc h2]
      exact xor_iff (by simp [h2, hcb])
    · rw [if_neg h2]
      by_cases hcb : c = b
      · subst hcb
        rw [if_pos rfl, hfirst]
        refine xor_iff ?_
        rw [Bool.and_eq_true, decide_eq_true_eq]
        exact ⟨fun h => .inl ⟨rfl, h⟩, fun h => h.elim And.right fun h => absurd h.1 h2⟩
      · simp [hcb, h2]

/-! ### The collision of one row -/

/-- Bit `7 - k` of the window is the pixel `sh + k` places into its two bytes. -/
theorem rowWindow_bit (hi lo : Byte) {sh k : Nat} (hs : sh < 8) (hk : k < 8) :
    (rowWindow hi lo sh).getLsbD (7 - k)
      = if sh + k < 8 then hi.getLsbD (7 - (sh + k)) else lo.getLsbD (15 - (sh + k)) := by
  interval_cases sh <;> interval_cases k <;> simp [rowWindow]

/-- The collision test on a row is a set source bit on a pixel that was on (R238). -/
theorem collides_iff (old src : Byte) :
    collides old (old ^^^ src) = true ↔
      ∃ k, k < 8 ∧ old.getLsbD (7 - k) = true ∧ src.getLsbD (7 - k) = true := by
  have hne : collides old (old ^^^ src) = true ↔ ¬ (~~~(old ^^^ src) &&& old) = 0 := by
    simp [collides]
  have hbit : ∀ m, m < 8 → ((~~~(old ^^^ src) &&& old).getLsbD m = true ↔
      old.getLsbD m = true ∧ src.getLsbD m = true) := by
    intro m hm
    simp only [BitVec.getLsbD_and, BitVec.getLsbD_not, BitVec.getLsbD_xor, hm]
    cases old.getLsbD m <;> cases src.getLsbD m <;> decide
  rw [hne]
  constructor
  · intro h
    by_contra hcon
    refine h (BitVec.eq_of_getLsbD_eq fun m hm => ?_)
    have hm7 : 7 - (7 - m) = m := by omega
    have hfalse : (~~~(old ^^^ src) &&& old).getLsbD m = false :=
      Bool.eq_false_iff.mpr fun h1 => hcon ⟨7 - m, by omega, hm7.symm ▸ (hbit m hm).1 h1⟩
    rw [hfalse]
    simp
  · rintro ⟨k, hk, hold⟩ h0
    have := (hbit (7 - k) (by omega)).2 hold
    rw [h0] at this
    simp at this

/-- A row collides exactly when it lights a pixel that is on (R234, R238); a pixel that the last row
drops is nowhere and cannot collide (R237). -/
theorem drawRow_collides (tail : FbTail) (fb : Framebuffer) (src : Byte) {off : Nat}
    (hoff : off < pixelCount) :
    (drawRow tail fb off src).2 = true ↔
      ∃ j, j < pixelCount ∧ fb.pixel j = true ∧ rowLights tail off src j := by
  simp only [pixelCount] at hoff ⊢
  obtain ⟨b, sh, hb, hs, rfl⟩ : ∃ b sh, b < 256 ∧ sh < 8 ∧ off = 8 * b + sh :=
    ⟨off / 8, off % 8, by omega, by omega, by omega⟩
  have hbd : (8 * b + sh) / 8 = b := by omega
  have hbm : (8 * b + sh) % 8 = sh := by omega
  simp only [drawRow, hbd, hbm, collides_iff]
  constructor
  · rintro ⟨k, hk, hold, hsrc⟩
    rw [rowWindow_bit _ _ hs hk] at hold
    split at hold
    next hlt =>
      refine ⟨8 * b + sh + k, by omega, ?_, k, hk, hsrc, .inl rfl⟩
      have h1 : (8 * b + sh + k) / 8 = b := by omega
      have h2 : (8 * b + sh + k) % 8 = sh + k := by omega
      rw [Framebuffer.pixel, h1, h2, ← get_tail tail .drop fb hb]
      exact hold
    next hge =>
      have h3 : 15 - (sh + k) = 7 - (sh + k - 8) := by omega
      rw [h3] at hold
      by_cases hb1 : b + 1 < 256
      · refine ⟨8 * b + sh + k, by omega, ?_, k, hk, hsrc, .inl rfl⟩
        have h1 : (8 * b + sh + k) / 8 = b + 1 := by omega
        have h2 : (8 * b + sh + k) % 8 = sh + k - 8 := by omega
        rw [Framebuffer.pixel, h1, h2, ← get_tail tail .drop fb hb1]
        exact hold
      · have hb255 : b = 255 := by omega
        subst hb255
        cases tail with
        | drop => exact absurd hold (by simp [Framebuffer.get])
        | wrap =>
          refine ⟨sh + k - 8, by omega, ?_, k, hk, hsrc,
            .inr ⟨rfl, by simp only [pixelCount]; omega⟩⟩
          have h1 : (sh + k - 8) / 8 = 0 := by omega
          have h2 : (sh + k - 8) % 8 = sh + k - 8 := by omega
          rw [Framebuffer.pixel, h1, h2]
          exact hold
  · rintro ⟨j, hj, hpix, k, hk, hsrc, hland⟩
    refine ⟨k, hk, ?_, hsrc⟩
    rw [rowWindow_bit _ _ hs hk]
    rcases hland with rfl | ⟨rfl, h⟩
    · split
      next hlt =>
        have h1 : (8 * b + sh + k) / 8 = b := by omega
        have h2 : (8 * b + sh + k) % 8 = sh + k := by omega
        rw [Framebuffer.pixel, h1, h2, ← get_tail tail .drop fb hb] at hpix
        exact hpix
      next hge =>
        have h1 : (8 * b + sh + k) / 8 = b + 1 := by omega
        have h2 : 7 - (8 * b + sh + k) % 8 = 15 - (sh + k) := by omega
        rw [Framebuffer.pixel, h1, h2, ← get_tail tail .drop fb (by simp only [fbBytes]; omega)] at hpix
        exact hpix
    · simp only [pixelCount] at h
      have hb255 : b = 255 := by omega
      subst hb255
      rw [if_neg (by omega)]
      have h1 : j / 8 = 0 := by omega
      have h2 : 7 - j % 8 = 15 - (sh + k) := by omega
      rw [Framebuffer.pixel, h1, h2] at hpix
      exact hpix

end Sys2Proof.Machine
end

