-- ==== Sys2Proof/Laws/Encoding.lean ====
section
/-! SUPPORT. What the decoder's fields are on a word written in each format of R72, and that the
operand types make every instruction well formed (R91). -/

namespace Sys2Proof

/-- Format `F-nnn`: the opcode and the address (R72). -/
theorem fields_nnn (a : BitVec 4) (c : Addr) :
    fieldOp (a ++ c : BitVec 16) = a ∧ fieldNNN (a ++ c : BitVec 16) = c := by
  constructor <;> ext i hi <;>
    simp only [fieldOp, fieldNNN, BitVec.getElem_extractLsb', BitVec.getLsbD_append] <;>
    interval_cases i <;> simp

/-- Formats `F-xnn` and `F-x`: the opcode, the register and the low byte (R72). -/
theorem fields_xnn (a b : BitVec 4) (c : Byte) :
    fieldOp (a ++ b ++ c : BitVec 16) = a ∧
    (a ++ b ++ c : BitVec 16).extractLsb' 8 4 = b ∧ fieldNN (a ++ b ++ c : BitVec 16) = c := by
  refine ⟨?_, ?_, ?_⟩ <;> ext i hi <;>
    simp only [fieldOp, fieldNN, BitVec.getElem_extractLsb', BitVec.getLsbD_append] <;>
    interval_cases i <;> simp

/-- Formats `F-xy` and `F-xyn`: the opcode, the two registers and the low nibble (R72). -/
theorem fields_xyn (a b c d : BitVec 4) :
    fieldOp (a ++ b ++ c ++ d : BitVec 16) = a ∧
    (a ++ b ++ c ++ d : BitVec 16).extractLsb' 8 4 = b ∧
    (a ++ b ++ c ++ d : BitVec 16).extractLsb' 4 4 = c ∧
    fieldN (a ++ b ++ c ++ d : BitVec 16) = d := by
  refine ⟨?_, ?_, ?_, ?_⟩ <;> ext i hi <;>
    simp only [fieldOp, fieldN, BitVec.getElem_extractLsb', BitVec.getLsbD_append] <;>
    interval_cases i <;> simp

/-- Every instruction's assembler form is in range: its operand types hold the ranges of R91. -/
theorem wellFormed_all (i : Instr) : i.wellFormed = true := by
  cases i <;> simp [Instr.wellFormed, AsmLine.wellFormed, Instr.asm, Mnemonic.forms, formAdmits,
    OperandKind.admits] <;> omega

end Sys2Proof
end

