-- ==== Sys2Proof/Laws/Exec.lean ====
section
/-! SUPPORT. What the shared operations of the meanings do, once each; what no instruction writes; and
what a step can do. -/

namespace Sys2Proof.Machine

/-! ### Block load -/

/-- The block load writes registers and nothing else. -/
theorem loadRegs_eq (s : State) (n : Nat) : s.loadRegs n = { s with v := (s.loadRegs n).v } := by
  induction n with
  | zero => rfl
  | succ k ih => unfold State.loadRegs; rw [ih]; rfl

/-- Loading `n` registers sets those below `n` from memory and leaves the others (R156, R157). -/
theorem getV_loadRegs (s : State) {n : Nat} (hn : n ≤ 16) (r : RegIdx) :
    (s.loadRegs n).getV r = if r.val < n then s.indexByte r.val else s.getV r := by
  induction n with
  | zero => rfl
  | succ k ih =>
    unfold State.loadRegs
    rw [getV_setV, ih (by omega), indexByte_congr (s := s) (by rw [loadRegs_eq]) (by rw [loadRegs_eq])]
    have hk : r = Fin.ofNat 16 k ↔ r.val = k := by
      rw [Fin.ext_iff]; simp [Nat.mod_eq_of_lt (show k < 16 by omega)]
    by_cases h : r.val = k
    · rw [if_pos (hk.2 h), if_pos (by omega), h]
    · rw [if_neg fun e => h (hk.1 e)]
      by_cases h' : r.val < k
      · rw [if_pos h', if_pos (by omega)]
      · rw [if_neg h', if_neg (by omega)]

/-- What the block load puts into the registers depends on the registers, memory and `I` alone. -/
theorem loadRegs_congr {s t : State} (hv : t.v = s.v) (hm : t.mem = s.mem) (hi : t.i = s.i)
    (n : Nat) : (t.loadRegs n).v = (s.loadRegs n).v := by
  induction n with
  | zero => exact hv
  | succ k ih =>
    have hmem : (t.loadRegs k).mem = (s.loadRegs k).mem := by
      rw [loadRegs_eq t, loadRegs_eq s]; exact hm
    have hidx : (t.loadRegs k).i = (s.loadRegs k).i := by
      rw [loadRegs_eq t, loadRegs_eq s]; exact hi
    unfold State.loadRegs
    rw [indexByte_congr hmem hidx]
    simp [ih]

/-! ### Sprite -/

/-- A sprite writes the framebuffer and VF, and nothing else. -/
theorem drawSprite_eq (tail : FbTail) (s : State) (x y : RegIdx) (n : Nat) :
    State.drawSprite tail s x y n =
      { s with
        fb := (s.drawRows tail (s.getV x) (s.getV y) n).1
        v := (s.setFlag (s.drawRows tail (s.getV x) (s.getV y) n).2).v } := rfl

/-- What the rows of a sprite draw depends on the framebuffer, memory and `I` alone. -/
theorem drawRows_congr (tail : FbTail) {s t : State} (hf : t.fb = s.fb) (hm : t.mem = s.mem)
    (hi : t.i = s.i) (x0 y0 : Byte) (n : Nat) :
    t.drawRows tail x0 y0 n = s.drawRows tail x0 y0 n := by
  induction n with
  | zero => simp [State.drawRows, hf]
  | succ k ih =>
    unfold State.drawRows
    rw [ih, indexByte_congr hm hi]

/-! ### Sum and carry -/

/-- The two writes of the register add change registers alone. -/
theorem writeSumAndCarry_eq (order : AddVf) (s : State) (x : RegIdx) (b : Byte) (c : Bool) :
    s.writeSumAndCarry order x b c = { s with v := (s.writeSumAndCarry order x b c).v } := by
  cases order <;> rfl

/-- Where the destination is not VF both orders leave the sum in it and the carry in VF (R127). -/
theorem getV_writeSumAndCarry (order : AddVf) (s : State) {x : RegIdx} (hx : x ≠ 15) (b : Byte)
    (c : Bool) (r : RegIdx) :
    (s.writeSumAndCarry order x b c).getV r
      = if r = 15 then flagByte c else if r = x then b else s.getV r := by
  cases order with
  | carryWins => simp only [State.writeSumAndCarry, State.setFlag, flagReg, getV_setV]
  | sumWins =>
    simp only [State.writeSumAndCarry, State.setFlag, flagReg, getV_setV]
    by_cases h15 : r = 15
    · subst h15; simp [hx.symm]
    · simp [h15]

/-- Where the destination is VF the order decides: carry or sum (R128). -/
theorem getV_writeSumAndCarry_flag (order : AddVf) (s : State) (b : Byte) (c : Bool) (r : RegIdx) :
    (s.writeSumAndCarry order 15 b c).getV r
      = if r = 15 then (match order with | .carryWins => flagByte c | .sumWins => b)
        else s.getV r := by
  cases order <;> simp only [State.writeSumAndCarry, State.setFlag, flagReg, getV_setV] <;>
    (by_cases h15 : r = 15 <;> simp [h15])

/-! ### What no instruction writes -/

/-- No instruction writes memory (R59), `ST` (R31), `cycles` (R34) or `status` (R35). -/
theorem exec_keeps {i : Instr} {s t : State} (h : exec i s = .next t) :
    t.mem = s.mem ∧ t.st = s.st ∧ t.cycles = s.cycles ∧ t.status = s.status := by
  cases i with
  | ldm x =>
    injection h with h
    rw [← h, loadRegs_eq]
    exact ⟨rfl, rfl, rfl, rfl⟩
  | addReg x y =>
    injection h with h
    rw [← h, State.addReg, writeSumAndCarry_eq]
    exact ⟨rfl, rfl, rfl, rfl⟩
  | seImm x nn =>
    injection h with h
    rw [← h, skipIf_eq]
    exact ⟨rfl, rfl, rfl, rfl⟩
  | seReg x y =>
    injection h with h
    rw [← h, skipIf_eq]
    exact ⟨rfl, rfl, rfl, rfl⟩
  | cls => injection h with h; rw [← h]; exact ⟨rfl, rfl, rfl, rfl⟩
  | ret => injection h with h; rw [← h]; exact ⟨rfl, rfl, rfl, rfl⟩
  | jmp a => injection h with h; rw [← h]; exact ⟨rfl, rfl, rfl, rfl⟩
  | call a => injection h with h; rw [← h]; exact ⟨rfl, rfl, rfl, rfl⟩
  | movImm x nn => injection h with h; rw [← h]; exact ⟨rfl, rfl, rfl, rfl⟩
  | addImm x nn => injection h with h; rw [← h]; exact ⟨rfl, rfl, rfl, rfl⟩
  | movReg x y => injection h with h; rw [← h]; exact ⟨rfl, rfl, rfl, rfl⟩
  | andReg x y => injection h with h; rw [← h]; exact ⟨rfl, rfl, rfl, rfl⟩
  | movI a => injection h with h; rw [← h]; exact ⟨rfl, rfl, rfl, rfl⟩
  | rnd x nn => injection h with h; rw [← h]; exact ⟨rfl, rfl, rfl, rfl⟩
  | drw x y n => injection h with h; rw [← h]; exact ⟨rfl, rfl, rfl, rfl⟩
  | getDt x => injection h with h; rw [← h]; exact ⟨rfl, rfl, rfl, rfl⟩
  | setDt x => injection h with h; rw [← h]; exact ⟨rfl, rfl, rfl, rfl⟩
  | addI x => injection h with h; rw [← h]; exact ⟨rfl, rfl, rfl, rfl⟩

/-! ### A step -/

/-- Everything a step that answers a next state can have done (R100, R106). -/
theorem step_next_cases {s t : State} (h : step s = .next t) :
    s.status = .running ∧
      ((∃ i u, decode s.fetchWord = .instr i ∧ exec i s.advancePc = .next u ∧ t = u.tick) ∨
       (decode s.fetchWord = .invalid ∧ t = s.advancePc.raiseInvalidOpcode s.pc s.fetchWord)) := by
  unfold step at h
  split at h
  next hrun =>
    refine ⟨hrun, ?_⟩
    split at h
    next i hdec =>
      refine .inl ?_
      cases hexec : exec i s.advancePc with
      | next u =>
        rw [hexec] at h
        exact ⟨i, u, hdec, hexec, by injection h with h; exact h.symm⟩
      | fault r => rw [hexec] at h; nomatch h
      | refused r => rw [hexec] at h; nomatch h
    next hdec => exact .inr ⟨hdec, by injection h with h; exact h.symm⟩
  next => nomatch h
  next => nomatch h

/-- A count down on a byte never wraps: it is the exact difference, clamped at zero (R208). -/
theorem toNat_countDown (k : Nat) (b : Byte) : (countDown k b).toNat = b.toNat - k := by
  have := b.isLt
  simp only [countDown, BitVec.toNat_ofNat]
  omega

/-- A timer at 0 stays at 0 (R208). -/
@[simp] theorem countDown_zero (k : Nat) : countDown k 0#8 = 0#8 :=
  BitVec.eq_of_toNat_eq (by rw [toNat_countDown]; simp)

end Sys2Proof.Machine
end

