-- ==== Sys2Proof/Laws/Memory.lean ====
section
/-! SUPPORT. Every memory operation keeps the canonical form, and a read after a write. -/

namespace Sys2Proof.Machine

/-- A memory in canonical form from `lo` on is so from any lower bound. -/
theorem wfFrom_mono {m : Memory} {lo lo' : Nat} (h : lo' ≤ lo) (hm : m.wfFrom lo = true) :
    m.wfFrom lo' = true := by
  cases m with
  | nil => rfl
  | cons c m =>
    obtain ⟨k, b⟩ := c
    simp only [Memory.wfFrom, Bool.and_eq_true, decide_eq_true_eq] at hm ⊢
    exact ⟨⟨⟨by omega, hm.1.1.2⟩, hm.1.2⟩, hm.2⟩

/-- Below its lowest listed address a memory reads 0. -/
theorem read_eq_zero_of_lt {m : Memory} {lo a : Nat} (hm : m.wfFrom lo = true) (ha : a < lo) :
    m.read a = 0 := by
  induction m generalizing lo with
  | nil => rfl
  | cons c m ih =>
    obtain ⟨k, b⟩ := c
    simp only [Memory.wfFrom, Bool.and_eq_true, decide_eq_true_eq] at hm
    have hk : ¬ k = a := by omega
    simp only [Memory.read, if_neg hk]
    exact ih hm.2 (by omega)

/-- A cell put before the cells above it keeps the canonical form. -/
theorem wfFrom_putCell {m : Memory} {lo a : Nat} {b : Byte} (hm : m.wfFrom (a + 1) = true)
    (hlo : lo ≤ a) (ha : a < memSize) : (Memory.putCell a b m).wfFrom lo = true := by
  unfold Memory.putCell
  split
  · exact wfFrom_mono (by omega) hm
  next hb =>
    simp only [Memory.wfFrom, Bool.and_eq_true, decide_eq_true_eq]
    exact ⟨⟨⟨hlo, ha⟩, by simpa using hb⟩, hm⟩

/-- A read after a cell is put before the cells above it. -/
theorem read_putCell {m : Memory} {a : Nat} (b : Byte) (hm : m.wfFrom (a + 1) = true) (c : Nat) :
    (Memory.putCell a b m).read c = if c = a then b else m.read c := by
  unfold Memory.putCell
  by_cases hca : c = a
  · subst hca
    rw [if_pos rfl]
    split
    next hb => rw [hb]; exact read_eq_zero_of_lt hm (Nat.lt_succ_self _)
    next => exact if_pos rfl
  · rw [if_neg hca]
    split
    · rfl
    · exact if_neg fun e => hca e.symm

/-- A write inside the address space keeps the canonical form, at any lower bound of the address. -/
theorem wfFrom_write {m : Memory} {lo a : Nat} {b : Byte} (hm : m.wfFrom lo = true) (hlo : lo ≤ a)
    (ha : a < memSize) : (m.write a b).wfFrom lo = true := by
  induction m generalizing lo with
  | nil => exact wfFrom_putCell rfl hlo ha
  | cons d m ih =>
    obtain ⟨k, d⟩ := d
    simp only [Memory.wfFrom, Bool.and_eq_true, decide_eq_true_eq] at hm
    unfold Memory.write
    split
    next hlt =>
      refine wfFrom_putCell ?_ hlo ha
      simp only [Memory.wfFrom, Bool.and_eq_true, decide_eq_true_eq]
      exact ⟨⟨⟨by omega, hm.1.1.2⟩, hm.1.2⟩, hm.2⟩
    next hge =>
      split
      next heq => exact wfFrom_putCell (heq ▸ hm.2) hlo ha
      next hne =>
        simp only [Memory.wfFrom, Bool.and_eq_true, decide_eq_true_eq]
        exact ⟨hm.1, ih hm.2 (by omega)⟩

/-- A read after a write, at any lower bound of the canonical form. -/
theorem read_write_from {m : Memory} {lo a : Nat} (b : Byte) (hm : m.wfFrom lo = true) (c : Nat) :
    (m.write a b).read c = if c = a then b else m.read c := by
  induction m generalizing lo with
  | nil => exact read_putCell b rfl c
  | cons d m ih =>
    obtain ⟨k, d⟩ := d
    simp only [Memory.wfFrom, Bool.and_eq_true, decide_eq_true_eq] at hm
    unfold Memory.write
    split
    next hlt =>
      refine read_putCell b ?_ c
      simp only [Memory.wfFrom, Bool.and_eq_true, decide_eq_true_eq]
      exact ⟨⟨⟨by omega, hm.1.1.2⟩, hm.1.2⟩, hm.2⟩
    next hge =>
      split
      next heq =>
        subst heq
        rw [read_putCell b hm.2 c]
        split
        · rfl
        next hne => exact (if_neg fun e => hne e.symm).symm
      next hne =>
        unfold Memory.read
        by_cases hkc : k = c
        · rw [if_pos hkc, if_pos hkc, if_neg fun e => hne (e.symm.trans hkc.symm)]
        · rw [if_neg hkc, if_neg hkc]
          exact ih hm.2

/-- A write inside the address space keeps the canonical form. -/
theorem wf_write {m : Memory} {a : Nat} {b : Byte} (hm : m.wf = true) (ha : a < memSize) :
    (m.write a b).wf = true :=
  wfFrom_write hm (Nat.zero_le a) ha

/-- A masked address is inside the address space. -/
theorem maskAddr_lt (a : Nat) : maskAddr a < memSize := Nat.mod_lt _ (by decide)

/-- Placing a word keeps the canonical form. -/
theorem wf_writeWord {m : Memory} (hm : m.wf = true) (a : Nat) (w : Word) :
    (m.writeWord a w).wf = true :=
  wf_write (wf_write hm (maskAddr_lt a)) (maskAddr_lt _)

/-- Loading bytes that end inside the address space keeps the canonical form. -/
theorem wf_load {m : Memory} {a : Nat} {bs : List Byte} (hm : m.wf = true)
    (ha : a + bs.length ≤ memSize) : (m.load a bs).wf = true := by
  induction bs generalizing m a with
  | nil => exact hm
  | cons b bs ih =>
    simp only [List.length_cons] at ha
    exact ih (wf_write hm (by omega)) (by omega)

/-- A read after a write: the written byte at its address, every other byte as it was. -/
theorem read_write {m : Memory} (hm : m.wf = true) (a : Nat) (b : Byte) (c : Nat) :
    (m.write a b).read c = if c = a then b else m.read c :=
  read_write_from b hm c

/-- A read after bytes are loaded at consecutive addresses: the byte loaded there, else as before. -/
theorem read_load {m : Memory} {a : Nat} {bs : List Byte} (hm : m.wf = true)
    (ha : a + bs.length ≤ memSize) (c : Nat) :
    (m.load a bs).read c = if h : a ≤ c ∧ c < a + bs.length then bs[c - a] else m.read c := by
  induction bs generalizing m a with
  | nil =>
    rw [dif_neg (by rw [List.length_nil]; omega)]
    rfl
  | cons b bs ih =>
    rw [List.length_cons] at ha
    unfold Memory.load
    rw [ih (wf_write hm (by omega)) (by omega), read_write hm]
    by_cases h1 : c = a
    · subst h1; simp
    · by_cases h2 : a + 1 ≤ c ∧ c < a + 1 + bs.length
      · have hsub : c - a = (c - (a + 1)) + 1 := by omega
        rw [dif_pos h2, dif_pos (by rw [List.length_cons]; omega)]
        simp [hsub]
      · rw [dif_neg h2, dif_neg (by rw [List.length_cons]; omega), if_neg h1]

/-- Everything a launch that answers a next state can have done (R283, R285). -/
theorem launch_next_cases {img : List Byte} {t : State} (h : launch img = .next t) :
    img.length ≤ maxImage ∧ t = { State.reset with mem := Memory.load [] loadAddr img } := by
  unfold launch at h
  split at h
  next hle => exact ⟨hle, by injection h with h; exact h.symm⟩
  next => nomatch h

end Sys2Proof.Machine
end

