-- ==== Sys2Proof/Laws/PerInstr.lean ====
section
/-! SUPPORT. The families of statements made for each instruction as syntax: `RowMatch`, that its word
lies in its row of the opcode map (R82, R83); `InRange`, that its assembler form is well formed (R91). -/

namespace Sys2Proof.Laws.RowMatch

/-- The encoding of `i` has the fixed bits of its row (R82, R83). -/
def Statement (i : Instr) : Prop := encode i &&& i.row.mask = i.row.pattern

/-- The mask of format `F-nnn` keeps the opcode (R72). -/
theorem masked_nnn (a : BitVec 4) (c : Addr) :
    (a ++ c : BitVec 16) &&& 0xF000#16 = a ++ 0#12 := by
  refine BitVec.eq_of_getLsbD_eq fun i hi => ?_
  simp only [BitVec.getLsbD_and, BitVec.getLsbD_append]
  interval_cases i <;> simp

/-- The mask of format `F-xnn` keeps the opcode (R72). -/
theorem masked_xnn (a b : BitVec 4) (c : Byte) :
    (a ++ b ++ c : BitVec 16) &&& 0xF000#16 = a ++ 0#12 := by
  refine BitVec.eq_of_getLsbD_eq fun i hi => ?_
  simp only [BitVec.getLsbD_and, BitVec.getLsbD_append]
  interval_cases i <;> simp

/-- The mask of format `F-x` keeps the opcode and the low byte (R72). -/
theorem masked_x (a b : BitVec 4) (c : Byte) :
    (a ++ b ++ c : BitVec 16) &&& 0xF0FF#16 = a ++ 0#4 ++ c := by
  refine BitVec.eq_of_getLsbD_eq fun i hi => ?_
  simp only [BitVec.getLsbD_and, BitVec.getLsbD_append]
  interval_cases i <;> simp

/-- The mask of format `F-xy` keeps the opcode and the low nibble (R72). -/
theorem masked_xy (a b c d : BitVec 4) :
    (a ++ b ++ c ++ d : BitVec 16) &&& 0xF00F#16 = a ++ 0#8 ++ d := by
  refine BitVec.eq_of_getLsbD_eq fun i hi => ?_
  simp only [BitVec.getLsbD_and, BitVec.getLsbD_append]
  interval_cases i <;> simp

/-- The mask of format `F-xyn` keeps the opcode (R72). -/
theorem masked_xyn (a b c d : BitVec 4) :
    (a ++ b ++ c ++ d : BitVec 16) &&& 0xF000#16 = a ++ 0#12 := by
  refine BitVec.eq_of_getLsbD_eq fun i hi => ?_
  simp only [BitVec.getLsbD_and, BitVec.getLsbD_append]
  interval_cases i <;> simp

theorem cls : Statement .cls := rfl

theorem ret : Statement .ret := rfl

theorem jmp (nnn : Addr) : Statement (.jmp nnn) := masked_nnn _ _

theorem call (nnn : Addr) : Statement (.call nnn) := masked_nnn _ _

theorem seImm (x : RegIdx) (nn : Byte) : Statement (.seImm x nn) := masked_xnn _ _ _

theorem seReg (x y : RegIdx) : Statement (.seReg x y) := masked_xy _ _ _ _

theorem movImm (x : RegIdx) (nn : Byte) : Statement (.movImm x nn) := masked_xnn _ _ _

theorem addImm (x : RegIdx) (nn : Byte) : Statement (.addImm x nn) := masked_xnn _ _ _

theorem movReg (x y : RegIdx) : Statement (.movReg x y) := masked_xy _ _ _ _

theorem andReg (x y : RegIdx) : Statement (.andReg x y) := masked_xy _ _ _ _

theorem addReg (x y : RegIdx) : Statement (.addReg x y) := masked_xy _ _ _ _

theorem movI (nnn : Addr) : Statement (.movI nnn) := masked_nnn _ _

theorem rnd (x : RegIdx) (nn : Byte) : Statement (.rnd x nn) := masked_xnn _ _ _

theorem drw (x y : RegIdx) (n : BitVec 4) : Statement (.drw x y n) := masked_xyn _ _ _ _

theorem getDt (x : RegIdx) : Statement (.getDt x) := masked_x _ _ _

theorem setDt (x : RegIdx) : Statement (.setDt x) := masked_x _ _ _

theorem addI (x : RegIdx) : Statement (.addI x) := masked_x _ _ _

theorem ldm (x : RegIdx) : Statement (.ldm x) := masked_x _ _ _

end Sys2Proof.Laws.RowMatch

namespace Sys2Proof.Laws.InRange

/-- The assembler form of `i` is well formed (R91). -/
def Statement (i : Instr) : Prop := i.wellFormed = true

theorem cls : Statement .cls := wellFormed_all _

theorem ret : Statement .ret := wellFormed_all _

theorem jmp (nnn : Addr) : Statement (.jmp nnn) := wellFormed_all _

theorem call (nnn : Addr) : Statement (.call nnn) := wellFormed_all _

theorem seImm (x : RegIdx) (nn : Byte) : Statement (.seImm x nn) := wellFormed_all _

theorem seReg (x y : RegIdx) : Statement (.seReg x y) := wellFormed_all _

theorem movImm (x : RegIdx) (nn : Byte) : Statement (.movImm x nn) := wellFormed_all _

theorem addImm (x : RegIdx) (nn : Byte) : Statement (.addImm x nn) := wellFormed_all _

theorem movReg (x y : RegIdx) : Statement (.movReg x y) := wellFormed_all _

theorem andReg (x y : RegIdx) : Statement (.andReg x y) := wellFormed_all _

theorem addReg (x y : RegIdx) : Statement (.addReg x y) := wellFormed_all _

theorem movI (nnn : Addr) : Statement (.movI nnn) := wellFormed_all _

theorem rnd (x : RegIdx) (nn : Byte) : Statement (.rnd x nn) := wellFormed_all _

theorem drw (x y : RegIdx) (n : BitVec 4) : Statement (.drw x y n) := wellFormed_all _

theorem getDt (x : RegIdx) : Statement (.getDt x) := wellFormed_all _

theorem setDt (x : RegIdx) : Statement (.setDt x) := wellFormed_all _

theorem addI (x : RegIdx) : Statement (.addI x) := wellFormed_all _

theorem ldm (x : RegIdx) : Statement (.ldm x) := wellFormed_all _

end Sys2Proof.Laws.InRange
end

