-- ==== Sys2Proof/Machine/Assembler.lean ====
section
/-! DEFINITION. The assembler's text form (spec/30_encoding.md R90, R91): lower-case mnemonics, operands
separated by spaces, registers `v0` to `vf`, immediates in hexadecimal with `0x` or in decimal, `;`
between instructions, `name:` labels and `<self>`. Syntax has no meaning for the machine (D3; log
entry 24). -/

namespace Sys2Proof.Machine

/-- A piece of text. -/
abbrev Text := List Char

/-- The pieces between separators. -/
def splitText (sep : Char → Bool) : Text → List Text
  | [] => [[]]
  | c :: cs =>
      match splitText sep cs with
      | [] => [[c]]
      | t :: ts => if sep c then [] :: t :: ts else (c :: t) :: ts

/-- The value of a digit below the base; letters of either case, of which R90 shows capital ones
(DESIGN CHOICE, log entry 24). -/
def digitValue (base : Nat) (c : Char) : Option Nat :=
  let v :=
    if '0'.toNat ≤ c.toNat ∧ c.toNat ≤ '9'.toNat then c.toNat - '0'.toNat
    else if 'a'.toNat ≤ c.toNat ∧ c.toNat ≤ 'f'.toNat then c.toNat - 'a'.toNat + 10
    else if 'A'.toNat ≤ c.toNat ∧ c.toNat ≤ 'F'.toNat then c.toNat - 'A'.toNat + 10
    else base
  if v < base then some v else none

/-- Digits after a value already read. -/
def readDigits (base : Nat) : Nat → Text → Option Nat
  | acc, [] => some acc
  | acc, c :: cs =>
      match digitValue base c with
      | some d => readDigits base (acc * base + d) cs
      | none => none

/-- An immediate: `0x` and hexadecimal digits, or decimal digits (R90). -/
def readNumber : Text → Option Nat
  | [] => none
  | ['0', 'x'] => none
  | '0' :: 'x' :: ds => readDigits 16 0 ds
  | ds => readDigits 10 0 ds

/-- A register name, `v0` to `v9` and `va` to `vf`, in lower case (R21, R90). -/
def readRegister : Text → Option Nat
  | ['v', c] => if 'A'.toNat ≤ c.toNat ∧ c.toNat ≤ 'F'.toNat then none else digitValue 16 c
  | _ => none

/-- The mnemonics as they are written (R91). -/
def mnemonicNames : List (Text × Mnemonic) :=
  [(['c', 'l', 's'], .cls), (['r', 'e', 't'], .ret), (['j', 'm', 'p'], .jmp),
   (['c', 'a', 'l', 'l'], .call), (['s', 'e'], .se), (['m', 'o', 'v'], .mov), (['a', 'd', 'd'], .add),
   (['a', 'n', 'd'], .and), (['r', 'n', 'd'], .rnd), (['d', 'r', 'w'], .drw), (['l', 'd', 'm'], .ldm)]

/-- Labels and the addresses they stand for (R90). -/
abbrev Labels := List (Text × Nat)

/-- An operand; `<self>` is the address of its own instruction and a label the address it names
(R90). DESIGN CHOICE, where R90 is silent (log entry 24): the order in which the kinds of operand are
tried, and that a label written twice stands for the first address it is written at. -/
def readOperand (labels : Labels) (self : Nat) (t : Text) : Option AsmOperand :=
  if t = ['i'] then some .i
  else if t = ['d', 't'] then some .dt
  else if t = ['<', 's', 'e', 'l', 'f', '>'] then some (.imm self)
  else
    match readRegister t, readNumber t with
    | some k, _ => some (.reg k)
    | none, some v => some (.imm v)
    | none, none => (labels.lookup t).map .imm

/-- A mnemonic and its operands, in order (R90). -/
def readLine (labels : Labels) (self : Nat) : List Text → Option AsmLine
  | [] => none
  | m :: ops =>
      match mnemonicNames.lookup m, ops.mapM (readOperand labels self) with
      | some m, some os => some ⟨m, os⟩
      | _, _ => none

/-- The name of a label, where a token is one: `name:` (R90). DESIGN CHOICE, where R90 is silent (log
entry 24): the name is all of the token before its last colon, be it empty or with other colons in it,
and the colon ends the token. -/
def labelName (t : Text) : Option Text :=
  match t.reverse with
  | ':' :: r => some r.reverse
  | _ => none

/-- The labels that stand before an instruction, of any number, and its tokens (DESIGN CHOICE, log
entry 24). -/
def takeLabels : List Text → List Text × List Text
  | [] => ([], [])
  | t :: ts =>
      match labelName t with
      | some n => (n :: (takeLabels ts).1, (takeLabels ts).2)
      | none => ([], t :: ts)

/-- The instructions of a text as tokens: `;` separates instructions and spaces separate tokens (R90);
line ends separate instructions too (DESIGN CHOICE, log entry 24). -/
def tokenLines (src : Text) : List (List Text) :=
  (splitText (fun c => c == ';' || c == '\n') src).map fun l =>
    (splitText (· == ' ') l).filter (· ≠ [])

/-- The address of each label, in the order they are written: instructions follow one another two
bytes apart, and a label on a line of its own names the next one's address (DESIGN CHOICE, log
entry 24). -/
def collectLabels : Nat → List (List Text) → Labels
  | _, [] => []
  | a, l :: ls =>
      (takeLabels l).1.map (fun n => (n, a)) ++
        collectLabels (if (takeLabels l).2 = [] then a else a + 2) ls

/-- The words of the instructions, the first at address `a`; nothing where one of them is refused
(R91). -/
def assembleLines (labels : Labels) : Nat → List (List Text) → Option (List Word)
  | _, [] => some []
  | a, l :: ls =>
      match (takeLabels l).2 with
      | [] => assembleLines labels a ls
      | t :: ts =>
          match (readLine labels a (t :: ts)).bind AsmLine.assemble, assembleLines labels (a + 2) ls with
          | some i, some ws => some (encode i :: ws)
          | _, _ => none

/-- A text assembled to words for the load address (R90, R91; the address: DESIGN CHOICE, log
entry 24). -/
def assembleText (src : Text) : Option (List Word) :=
  assembleLines (collectLabels loadAddr (tokenLines src)) loadAddr (tokenLines src)

end Sys2Proof.Machine
end

