-- ==== Sys2Proof/Tests/Slice0.lean ====
section
/-! SUPPORT. The model's own tests: expected results are the vectors of spec/95_test_vectors.md and the
examples of the rules, named at each group. Then a witness for the hypotheses of each statement. -/

namespace Sys2Proof.Tests

open Sys2Proof.Machine

/-- A next state that passes a check. -/
def ok (r : Result) (p : State → Bool) : Bool :=
  match r with
  | .next t => p t
  | .fault _ => false
  | .refused _ => false

/-- The reset state with some registers set. -/
def regs (l : List (RegIdx × Byte)) : State :=
  l.foldl (fun s rb => s.setV rb.1 rb.2) State.reset

/-- A state with memory and `I`. -/
def atIndex (m : Memory) (i : Word) (s : State) : State := { s with mem := m, i := i }

/-! ### WellFormed: a line refused by each check (R91) -/

theorem test_asm_register_16_refused : (⟨.ldm, [.reg 16]⟩ : AsmLine).assemble = none := by decide
theorem test_asm_n_16_refused :
    (⟨.drw, [.reg 0, .reg 1, .imm 16]⟩ : AsmLine).assemble = none := by decide
theorem test_asm_nn_256_refused :
    (⟨.mov, [.reg 0, .imm 256]⟩ : AsmLine).assemble = none := by decide
theorem test_asm_nnn_4096_refused : (⟨.jmp, [.imm 4096]⟩ : AsmLine).assemble = none := by decide
theorem test_asm_literal_refused : (⟨.mov, [.i, .dt]⟩ : AsmLine).assemble = none := by decide
theorem test_asm_operand_count_refused : (⟨.se, [.reg 0]⟩ : AsmLine).assemble = none := by decide
theorem test_asm_in_range :
    (⟨.drw, [.reg 15, .reg 15, .imm 15]⟩ : AsmLine).assemble = some (.drw 15 15 15) := by decide

/-! ### Assembler text (MC8's program of 95 section 1.1, R90, R91) -/

theorem test_text_of_the_source_program :
    assembleText "mov v0 0x0A; mov v1 0x05; add v0 v1; jmp <self>".toList
      = some [0x600A, 0x6105, 0x8014, 0x1206] := by decide
theorem test_text_label_and_decimal :
    assembleText "drw vf va 15; end: jmp end".toList = some [0xDFAF, 0x1202] := by decide
theorem test_text_label_twice_is_the_first :
    assembleText "a: cls; a: jmp a".toList = some [0x00E0, 0x1200] := by decide
theorem test_text_out_of_range_refused : assembleText "mov v0 0x100".toList = none := by decide

/-! ### Decode: every constructor from a word written out (95 section 2.1, R82) -/

theorem test_decode_cls : decodeBytes 0x00 0xE0 = .instr .cls := by decide
theorem test_decode_ret : decodeBytes 0x00 0xEE = .instr .ret := by decide
theorem test_decode_jmp : decodeBytes 0x12 0x06 = .instr (.jmp 0x206) := by decide
theorem test_decode_call : decodeBytes 0x23 0x00 = .instr (.call 0x300) := by decide
theorem test_decode_seImm : decodeBytes 0x34 0x2A = .instr (.seImm 4 0x2A) := by decide
theorem test_decode_seReg : decodeBytes 0x51 0x20 = .instr (.seReg 1 2) := by decide
theorem test_decode_movImm : decodeBytes 0x61 0x05 = .instr (.movImm 1 0x05) := by decide
theorem test_decode_addImm : decodeBytes 0x72 0x20 = .instr (.addImm 2 0x20) := by decide
theorem test_decode_movReg : decodeBytes 0x85 0x30 = .instr (.movReg 5 3) := by decide
theorem test_decode_andReg : decodeBytes 0x86 0x72 = .instr (.andReg 6 7) := by decide
theorem test_decode_addReg : decodeBytes 0x80 0x14 = .instr (.addReg 0 1) := by decide
theorem test_decode_movI : decodeBytes 0xA3 0x00 = .instr (.movI 0x300) := by decide
theorem test_decode_rnd : decodeBytes 0xC1 0x0F = .instr (.rnd 1 0x0F) := by decide
theorem test_decode_drw : decodeBytes 0xD0 0x15 = .instr (.drw 0 1 5) := by decide
theorem test_decode_getDt : decodeBytes 0xF0 0x07 = .instr (.getDt 0) := by decide
theorem test_decode_setDt : decodeBytes 0xF3 0x15 = .instr (.setDt 3) := by decide
theorem test_decode_addI : decodeBytes 0xF2 0x1E = .instr (.addI 2) := by decide
theorem test_decode_ldm : decodeBytes 0xF1 0x65 = .instr (.ldm 1) := by decide
theorem test_decode_invalid :
    [0x0000#16, 0x00E1#16, 0x0123#16, 0x4000#16, 0x5121#16, 0x8003#16, 0x8016#16, 0x9000#16, 0xB000#16,
      0xE09E#16, 0xF018#16, 0xF029#16, 0xF055#16, 0xFFFF#16].all (fun w => decode w == .invalid) = true := by
  decide
theorem test_tableWord_reads_first_word : decodeTableWord 16 0x8FF4 = some (.addReg 15 15) := by decide

/-! ### ALU (95 section 2.3, R129) -/

theorem test_movImm_flag : ok (exec (.movImm 15 0x07) State.reset) (·.getV 15 == 0x07) = true := by decide
theorem test_movReg_copies :
    ok (exec (.movReg 5 3) (regs [(3, 0x7C)])) (fun t => t.getV 5 == 0x7C && t.getV 3 == 0x7C) = true := by
  decide
theorem test_addImm_keeps_flag :
    ok (exec (.addImm 2 0x01) (regs [(2, 0xFF), (15, 1)])) (fun t => t.getV 2 == 0 && t.getV 15 == 1) = true := by
  decide
theorem test_addImm_on_flag :
    ok (exec (.addImm 15 0x02) (regs [(15, 0xFF)])) (·.getV 15 == 0x01) = true := by decide
theorem test_addReg_carry_from_flag_operand (order : AddVf) :
    (State.addReg order (regs [(2, 0x01), (15, 0xFF)]) 2 15).getV 2 = 0 ∧
    (State.addReg order (regs [(2, 0x01), (15, 0xFF)]) 2 15).getV 15 = 1 := by
  cases order <;> decide
theorem test_addReg_into_flag :
    (State.addReg .carryWins (regs [(15, 0xF0), (3, 0x20)]) 15 3).getV 15 = 1 ∧
    (State.addReg .sumWins (regs [(15, 0xF0), (3, 0x20)]) 15 3).getV 15 = 0x10 := by decide
theorem test_andReg_keeps_flag :
    ok (exec (.andReg 6 7) (regs [(6, 0xF0), (7, 0x3C), (15, 1)]))
      (fun t => t.getV 6 == 0x30 && t.getV 15 == 1) = true := by decide
theorem test_rnd_masks_the_draw : (State.reset.storeMasked 0xA7 1 0x0F).getV 1 = 0x07 := by decide
theorem test_rnd_counts_one_draw :
    ok (exec (.rnd 1 0x0F) State.reset) (·.draws == 1) = true := by decide

/-! ### Index and block load (95 section 2.4) -/

theorem test_movI_sets : ok (exec (.movI 0x300) State.reset) (·.i == 0x0300) = true := by decide
theorem test_addI_past_memory :
    ok (exec (.addI 0) (atIndex [] 0x0FFF (regs [(0, 1)]))) (·.i == 0x1000) = true := by decide
theorem test_addI_wraps :
    ok (exec (.addI 0) (atIndex [] 0xFFFF (regs [(0, 1)]))) (fun t => t.i == 0 && t.getV 15 == 0) = true := by
  decide
theorem test_ldm_wraps_in_memory :
    ok (exec (.ldm 3) (atIndex [(0xFFE, 0xAA), (0xFFF, 0xBB)] 0x0FFE (regs [(3, 9), (4, 9)])))
      (fun t => t.getV 0 == 0xAA && t.getV 1 == 0xBB && t.getV 2 == 0 && t.getV 3 == 0 && t.getV 4 == 9)
      = true := by decide
theorem test_ldm_masks_high_index :
    ok (exec (.ldm 0) (atIndex [(0x300, 0x11)] 0x1300 State.reset))
      (fun t => t.getV 0 == 0x11 && t.i == 0x1300) = true := by decide

/-! ### Control flow (95 section 2.5); `pc` is the address after the instruction -/

theorem test_seImm_taken_wraps :
    ok (exec (.seImm 0 0) (State.reset.setPc 0xFFFE)) (·.pc == 0x0000) = true := by decide
theorem test_seImm_not_taken :
    ok (exec (.seImm 4 0x2A) ((regs [(4, 0x2B)]).setPc 0x0212)) (·.pc == 0x0212) = true := by decide
theorem test_seReg_same_register :
    ok (exec (.seReg 15 15) (State.reset.setPc 0x0302)) (·.pc == 0x0304) = true := by decide
theorem test_seReg_not_taken :
    ok (exec (.seReg 1 2) ((regs [(1, 1), (2, 2)]).setPc 0x0302)) (·.pc == 0x0302) = true := by decide
theorem test_jmp_is_absolute : ok (exec (.jmp 0x206) State.reset) (·.pc == 0x0206) = true := by decide
theorem test_call_at_full_stack :
    ok (exec (.call 0x300) { State.reset with pc := 0x0402, sp := 15 })
      (fun t => t.getSlot 15 == 0x0402 && t.sp == 0 && t.pc == 0x0300) = true := by decide
theorem test_ret_on_empty_stack :
    ok (exec .ret State.reset) (fun t => t.sp == 15 && t.pc == 0x0000) = true := by decide
theorem test_ret_keeps_the_slot :
    ok (exec .ret { State.reset with sp := 1, stack := State.reset.stack.set 0 0x0202 })
      (fun t => t.sp == 0 && t.pc == 0x0202 && t.getSlot 0 == 0x0202) = true := by decide

/-! ### Timers (95 section 2.6) -/

/-- A configuration with this frame rate and 20 instructions a frame. -/
def rate (fps : ℕ+) : Config := ⟨20, fps, .carryWins, .drop⟩

theorem test_getDt_reads : ok (exec (.getDt 0) { State.reset with dt := 0x3C }) (·.getV 0 == 0x3C) = true := by
  decide
theorem test_setDt_then_own_tick :
    ok (exec (.setDt 3) { regs [(3, 5)] with cycles := 9 })
      (fun t => (t.tickWith (rate 30)).dt == 4 && (t.tickWith (rate 30)).cycles == 10) = true := by decide
theorem test_tick_no_boundary_at_cycle_1 :
    ((State.reset.setDt 5).tickWith (rate 30)).dt = 5 := by decide
theorem test_tick_clamps_at_zero :
    ({ State.reset with dt := 2, cycles := 9 }.tickWith (rate 1)).dt = 0 := by decide
theorem test_ticks_at_7_fps :
    ((List.range 13).filter fun c => tickCount (rate 7) c == 1).map (· + 1) = [3, 5, 7, 10, 12] := by decide

/-! ### Display (R239, 95 section 2.7) -/

/-- The framebuffer byte `j` after a draw of `n` rows at `(V[0], V[1])` from 0x300, and VF. -/
def drawn (tail : FbTail) (fb : Framebuffer) (x y : Byte) (rows : Memory) (n j : Nat) : Byte × Byte :=
  let t := State.drawSprite tail { atIndex rows 0x300 (regs [(0, x), (1, y)]) with fb := fb } 0 1 n
  (t.fb.get .drop j, t.getV 15)

theorem test_cls_clears_a_byte :
    ok (exec .cls { State.reset with fb := Framebuffer.clear.set 5 0xFF }) (·.fb.get .drop 5 == 0) = true := by
  decide
theorem test_drw_straddles_two_bytes :
    drawn .drop .clear 3 0 [(0x300, 0xFF)] 1 0 = (0x1F, 0) ∧
    drawn .drop .clear 3 0 [(0x300, 0xFF)] 1 1 = (0xE0, 0) := by decide
theorem test_drw_tail_wraps_or_drops :
    drawn .drop (Framebuffer.clear.set 0 0x80) 61 31 [(0x300, 0xFF)] 1 0 = (0x80, 0) ∧
    drawn .wrap (Framebuffer.clear.set 0 0x80) 61 31 [(0x300, 0xFF)] 1 0 = (0x78, 1) := by decide
theorem test_drw_collision :
    drawn .drop (Framebuffer.clear.set 0 0x18) 0 0 [(0x300, 0x3C)] 1 0 = (0x24, 1) := by decide
theorem test_drw_offset_is_linear_mod_2048 :
    drawn .drop .clear 255 255 [(0x300, 0x80)] 1 23 = (0x01, 0) ∧
    drawn .drop .clear 70 0 [(0x300, 0xFF)] 1 9 = (0xFC, 0) := by decide
theorem test_drw_last_row_wraps_to_the_top :
    drawn .drop .clear 0 31 [(0x300, 0x80), (0x301, 0x80)] 2 0 = (0x80, 0) := by decide
theorem test_drw_height_zero_clears_flag :
    (State.drawSprite .drop (regs [(15, 1)]) 0 1 0).getV 15 = 0 := by decide
theorem test_drw_origin_in_the_flag :
    (State.drawSprite .drop (atIndex [(0x300, 0xFF)] 0x300 (regs [(15, 8)])) 15 0 1).fb.get .drop 1 = 0xFF := by
  decide
theorem test_pixel_formula :
    pixelOn (Framebuffer.clear.set 41 0x20) 10 5 = true ∧ pixelOn (Framebuffer.clear.set 41 0x20) 11 5 = false := by
  decide

/-! ### Fetch and cycle (95 section 2.2) -/

/-- The reset state with memory and a program counter. -/
def atPc (m : Memory) (pc : Word) : State := { State.reset with mem := m, pc := pc }

theorem test_step_odd_pc :
    ok (step (atPc [(0x201, 0x61), (0x202, 0x05)] 0x0201)) (fun t => t.getV 1 == 0x05 && t.pc == 0x0203) = true := by
  decide
theorem test_step_straddles_the_top :
    ok (step (atPc [(0xFFF, 0x60)] 0x0FFF)) (fun t => t.getV 0 == 0 && t.pc == 0x1001) = true := by decide
theorem test_step_pc_wraps :
    ok (step (atPc [(0xFFE, 0x60), (0xFFF, 0x01)] 0xFFFE)) (fun t => t.getV 0 == 1 && t.pc == 0) = true := by
  decide
theorem test_step_invalid_word :
    ok (step { atPc [(0x204, 0xFF), (0x205, 0xFF)] 0x0204 with cycles := 2, dt := 9 })
      (fun t => t.status == .faulted ⟨0x0204, 0xFFFF⟩ && t.pc == 0x0206 && t.cycles == 2 && t.dt == 9)
      = true := by decide
theorem test_launch_places_the_image :
    ok (launch [0x60, 0x0A]) (fun t => t.fetchWord == 0x600A && t.mem == [(0x200, 0x60), (0x201, 0x0A)])
      = true := by decide
theorem test_withFetchWord_runs_first :
    ok (step (State.reset.withFetchWord 16 0x600A)) (fun t => t.getV 0 == 0x0A && t.cycles == 1) = true := by
  decide

/-! ### Witnesses: states and operands that meet the hypotheses of the statements -/

/-- The reset state with a word to fetch. -/
def placed (w : Nat) : State := State.reset.withFetchWord 16 w

/-- EncodeOfDecode, ImmediatesAreTheWordMasked, RegisterOperandsAreTheirBitFields,
ValidWordsAreTheRows: words that decode, at the edges of each field. -/
theorem witness_decodes :
    decode 0x1FFF = .instr (.jmp 0xFFF) ∧ decode 0x3F00 = .instr (.seImm 15 0x00) ∧
    decode 0x8FF4 = .instr (.addReg 15 15) ∧ decode 0xD00F = .instr (.drw 0 0 15) ∧
    decode 0x00EE = .instr .ret ∧ decode 0xF065 = .instr (.ldm 0) := by decide

/-- LaunchLoadsTheImageVerbatim, LaunchEntersAtTheLoadAddressOrRefuses: an image of the greatest size,
one of none, and one byte too many. -/
theorem witness_image_sizes :
    (List.replicate 3584 (0xFF : Byte)).length ≤ 3584 ∧ 3583 < (List.replicate 3584 (0xFF : Byte)).length ∧
    ([] : List Byte).length ≤ 3584 ∧ 3584 < (List.replicate 3585 (0xFF : Byte)).length := by
  simp only [List.length_replicate, List.length_nil]; decide
theorem witness_launch_answers : ∃ t, launch [0x60, 0x0A] = .next t := ⟨_, rfl⟩

/-- StatesThatAgreeInEveryPartAreEqual, EveryStepKeepsTheInvariant: a state that meets the invariant,
with a word placed, and steps. -/
theorem witness_invariant : (atPc [(0x200, 0x12)] 0x0200).Inv where
  mem_wf := by decide
  reserved_zero := by
    intro a ha
    exact if_neg (by simp only [loadAddr] at ha; omega)
  sound_zero := rfl
  fault_true := fun _ h => nomatch h
theorem witness_invariant_steps : ∃ t, step (atPc [(0x200, 0x12)] 0x0200) = .next t := ⟨_, rfl⟩
theorem witness_step_answers : ∃ t, step (placed 0x1200) = .next t ∧ t.status = .running := ⟨_, rfl, rfl⟩
theorem witness_step_faults :
    ∃ t, step State.reset = .next t ∧ t.status ≠ .running := ⟨_, rfl, (fun h => nomatch h)⟩

/-- A faulted state that meets the invariant: the state one step after reset with no image (R284). -/
theorem witness_invariant_faulted : (State.reset.advancePc.raiseInvalidOpcode 0x0200 0x0000).Inv where
  mem_wf := by decide
  reserved_zero := fun _ _ => rfl
  sound_zero := rfl
  fault_true := by
    intro info h
    injection h with h
    subst h
    decide

/-- RegistersReadAsLastWritten, OnlyControlInstructionsUseThePc and the statements that an instruction
does not use a part: instructions outside each class, which answer. -/
theorem witness_classes :
    (Instr.movImm 3 1).writesReg 4 = false ∧ (Instr.cls).usesIndex = false ∧
    (Instr.ldm 15).usesStack = false ∧ (Instr.call 0).usesDt = false ∧ (Instr.ret).usesFb = false ∧
    (Instr.drw 0 1 15).writesPc = false ∧ (∀ nnn, Instr.ret ≠ .call nnn) ∧
    (∀ i ∈ [Instr.movImm 3 1, .cls, .ldm 15, .call 0, .ret, .drw 0 1 15],
      ∃ t, exec i State.reset = .next t) := by
  refine ⟨rfl, rfl, rfl, rfl, rfl, rfl, (fun _ h => nomatch h), ?_⟩
  intro i _
  cases i <;> exact ⟨_, rfl⟩

/-- FlagRegisterSideEffectsAreAddAndDraw: VF changes. -/
theorem witness_flag_changes :
    ok (exec (.movImm 15 7) State.reset) (fun t => t.getV 15 != State.reset.getV 15) = true := by decide

/-- StackEntriesAreForCallAndReturnOnly: a call and a return that answer. -/
theorem witness_call_and_return :
    (∃ t, exec (.call 0xFFF) State.reset = .next t) ∧ ∃ t, exec .ret State.reset = .next t :=
  ⟨⟨_, rfl⟩, ⟨_, rfl⟩⟩

/-- StepRunsTheDecodedInstruction, ProgramCounterAdvancesAtFetch, TimerInstructionsCopyBeforeTheTick,
JumpToSelfRunsForEver, AFrameIsIpfSteps, NothingButAnInvalidWordFaults: running states, one for each
clause's word. -/
theorem witness_running :
    (placed 0x600A).status = .running ∧
    decode (placed 0x600A).fetchWord = .instr (.movImm 0 0x0A) ∧
    decode (placed 0x3000).fetchWord = .instr (.seImm 0 0) ∧
    decode (placed 0x5010).fetchWord = .instr (.seReg 0 1) ∧
    decode (placed 0x2FFF).fetchWord = .instr (.call 0xFFF) ∧
    decode (placed 0xF007).fetchWord = .instr (.getDt 0) ∧
    decode (placed 0xFF15).fetchWord = .instr (.setDt 15) ∧
    decode (placed 0x1200).fetchWord = .instr (.jmp 0x200) ∧
    absoluteAddr 0x200 = (placed 0x1200).pc := by decide

/-- ProgramCounterAdvancesAtFetch at the top of the counter. -/
theorem witness_running_at_the_top :
    (atPc [(0xFFE, 0x60)] 0xFFFE).status = .running ∧
    decode (atPc [(0xFFE, 0x60)] 0xFFFE).fetchWord = .instr (.movImm 0 0) := by decide

/-- InvalidWordLeavesTheFaultedState: a running state that fetches an invalid word. -/
theorem witness_invalid_fetched :
    State.reset.status = .running ∧ decode State.reset.fetchWord = .invalid := by decide

/-- NoStepIsEnabledUnlessRunning, HostStopEndsTheRun: states in each status. -/
theorem witness_not_running :
    (State.reset.raiseInvalidOpcode 0 0).status = .faulted ⟨0, 0⟩ ∧ (hostStop State.reset).status = .stopped ∧
    (hostStop State.reset).status ≠ .running := by decide

/-- EightBitAddLaw, AddRegisterSetsSumAndCarry: a destination that is not VF, and VF. -/
theorem witness_destinations : (14 : RegIdx) ≠ 15 ∧ (15 : RegIdx) = 15 := by decide

/-- RandomIsAFreeByteUnderTheMask: a value inside the mask. -/
theorem witness_masked_value : (0x07#8 &&& ~~~0x0F#8) = 0 := by decide

/-- BlockLoadFillsRegistersFromMemory: registers up to the last one. -/
theorem witness_block_range : (15 : RegIdx) ≤ 15 ∧ ¬ (1 : RegIdx) ≤ 0 := by decide

/-- SeventeenthCallOverwritesTheOldestEntry: an empty stack and fifteen more targets. -/
theorem witness_sixteen_calls :
    State.reset.sp = 0 ∧ (List.replicate 15 (0x300 : Addr)).length = 15 := by decide

/-- CallThenReturnComesBack: a call at 0x200 whose target holds `ret`, at a full stack. -/
theorem witness_call_then_return :
    let s := { atPc [(0x200, 0x23), (0x301, 0xEE)] 0x0200 with sp := 15 }
    s.status = .running ∧ decode s.fetchWord = .instr (.call 0x300) ∧
      s.wordAt (absoluteAddr 0x300) = 0x00EE := by decide

/-- SixtyTicksInEveryLogicalSecond: a configuration with a step rate of 60 or more, and one below. -/
theorem witness_step_rate :
    60 ≤ ((rate 3).fps : Nat) * ((rate 3).ipf : Nat) ∧ ¬ 60 ≤ ((rate 2).fps : Nat) * ((rate 2).ipf : Nat) := by
  decide

/-- TimersNeverRiseBetweenSets: a step that answers and whose word is not `mov dt vX`. -/
theorem witness_no_set :
    (∃ t, step (placed 0x600A) = .next t) ∧
      ∀ x, decode (placed 0x600A).fetchWord ≠ .instr (.setDt x) :=
  ⟨⟨_, rfl⟩, by decide⟩

/-- FramebufferLayoutAndUsers, FramebufferTailFollowsItsParameter, RowByteOperations and the pixel
statements: indexes at the ends of their ranges. -/
theorem witness_display_ranges :
    63 < 64 ∧ 31 < 32 ∧ 255 < 256 ∧ 256 ≤ 256 ∧ 7 < 8 ∧ 2047 < pixelCount := by decide

/-- IndexRegisterHasItsFourUsers: two values of `I` that differ and reach the same sprite bytes. -/
theorem witness_same_sprite_bytes :
    (∀ k, k < (15 : BitVec 4).toNat →
      State.indexByte { State.reset with i := 0x1000 } k = State.reset.indexByte k) ∧
    (0x1000 : Word) ≠ State.reset.i ∧ ∃ t, exec (.drw 0 1 15) State.reset = .next t :=
  ⟨by decide, by decide, _, rfl⟩

/-- DrawingTwiceRestoresTheFramebuffer: a first draw, and the state before the second: the one the
draw left with the registers of the origin as they were. -/
theorem witness_draw_twice :
    let s := atIndex [(0x300, 0xFF)] 0x300 (regs [(0, 61), (15, 31)])
    ∃ t, exec (.drw 0 15 1) s = .next t ∧
      ({ t with v := s.v } : State).fb = t.fb ∧ ({ t with v := s.v } : State).mem = s.mem ∧
      ({ t with v := s.v } : State).i = s.i ∧ ({ t with v := s.v } : State).getV 0 = s.getV 0 ∧
      ({ t with v := s.v } : State).getV 15 = s.getV 15 :=
  ⟨_, rfl, rfl, rfl, rfl, rfl, rfl⟩

end Sys2Proof.Tests
end

section
/-! Rules about the state that the statements of spec/10_state.md rest on: what each instruction
answers, when two states are one, which registers an instruction leaves, and that an instruction
commutes with every change to a part it does not use. -/

namespace Sys2Proof.Machine

/-! ### What each instruction answers -/

variable (s : State)

@[simp] theorem exec_cls : exec .cls s = .next (s.setFb .clear) := rfl
@[simp] theorem exec_ret : exec .ret s = .next s.popPc := rfl
@[simp] theorem exec_jmp (a : Addr) : exec (.jmp a) s = .next (s.setPc (absoluteAddr a)) := rfl
@[simp] theorem exec_call (a : Addr) :
    exec (.call a) s = .next (s.pushPc.setPc (absoluteAddr a)) := rfl
@[simp] theorem exec_seImm (x : RegIdx) (nn : Byte) :
    exec (.seImm x nn) s = .next (s.skipIf (s.getV x == nn)) := rfl
@[simp] theorem exec_seReg (x y : RegIdx) :
    exec (.seReg x y) s = .next (s.skipIf (s.getV x == s.getV y)) := rfl
@[simp] theorem exec_movImm (x : RegIdx) (nn : Byte) :
    exec (.movImm x nn) s = .next (s.setV x nn) := rfl
@[simp] theorem exec_addImm (x : RegIdx) (nn : Byte) :
    exec (.addImm x nn) s = .next (s.setV x (addSum (s.getV x) nn)) := rfl
@[simp] theorem exec_movReg (x y : RegIdx) :
    exec (.movReg x y) s = .next (s.setV x (s.getV y)) := rfl
@[simp] theorem exec_andReg (x y : RegIdx) :
    exec (.andReg x y) s = .next (s.setV x (s.getV x &&& s.getV y)) := rfl
@[simp] theorem exec_addReg (x y : RegIdx) :
    exec (.addReg x y) s = .next (State.addReg Config.startup.addVf s x y) := rfl
@[simp] theorem exec_movI (a : Addr) : exec (.movI a) s = .next (s.setI (absoluteAddr a)) := rfl
@[simp] theorem exec_rnd (x : RegIdx) (nn : Byte) :
    exec (.rnd x nn) s = .next ((s.setV x (Config.rand8 s.draws &&& nn)).countDraw) := rfl
@[simp] theorem exec_drw (x y : RegIdx) (n : BitVec 4) :
    exec (.drw x y n) s = .next (State.drawSprite Config.startup.fbTail s x y n.toNat) := rfl
@[simp] theorem exec_getDt (x : RegIdx) : exec (.getDt x) s = .next (s.setV x s.dt) := rfl
@[simp] theorem exec_setDt (x : RegIdx) : exec (.setDt x) s = .next (s.setDt (s.getV x)) := rfl
@[simp] theorem exec_addI (x : RegIdx) :
    exec (.addI x) s = .next (s.setI (s.i + (s.getV x).setWidth 16)) := rfl
@[simp] theorem exec_ldm (x : RegIdx) : exec (.ldm x) s = .next (s.loadRegs (x.val + 1)) := rfl

/-! ### Arithmetic of addresses and of the stack pointer -/

/-- The address reduction as the mask of R53. -/
theorem maskAddr_eq_and (a : Nat) : maskAddr a = a &&& 0xFFF :=
  (Nat.and_two_pow_sub_one_eq_mod a 12).symm

/-- A 12-bit address keeps its value when it is zero-extended (R73). -/
@[simp] theorem toNat_absoluteAddr (a : Addr) : (absoluteAddr a).toNat = a.toNat :=
  BitVec.toNat_setWidth_of_le (by decide)

/-- One slot up, modulo the depth (R27). -/
theorem val_slot_add_one (k : Fin stackDepth) : (k + 1).val = (k.val + 1) % 16 := Fin.val_add k 1

/-- One slot down, modulo the depth (R27). -/
theorem val_slot_sub_one (k : Fin stackDepth) : (k - 1).val = (k.val + 15) % 16 := by
  rw [Fin.sub_def, Nat.add_comm]
  rfl

/-- Every slot after a push: the pushed `pc` in the slot at SP, the others as they were (R179). -/
theorem getSlot_pushPc_eq (k : Fin stackDepth) :
    s.pushPc.getSlot k = if k = s.sp then s.pc else s.getSlot k := by
  split
  next h => rw [h, getSlot_pushPc]
  next h => exact getSlot_pushPc_of_ne s h

/-! ### Two states that agree in every part -/

theorem wfFrom_cons {lo k : Nat} {b : Byte} {m : Memory} :
    Memory.wfFrom lo ((k, b) :: m) = true ↔
      lo ≤ k ∧ k < memSize ∧ b ≠ 0 ∧ m.wfFrom (k + 1) = true := by
  simp [Memory.wfFrom, and_assoc]

theorem read_cons (k : Nat) (b : Byte) (m : Memory) (a : Nat) :
    Memory.read ((k, b) :: m) a = if k = a then b else m.read a := rfl

/-- A byte that does not read 0 lies at or above the lower bound of a canonical form. -/
theorem le_of_read_ne_zero {m : Memory} {lo a : Nat} (hm : m.wfFrom lo = true)
    (h : m.read a ≠ 0) : lo ≤ a :=
  Nat.le_of_not_lt fun hlt => h (read_eq_zero_of_lt hm hlt)

/-- Two canonical memories that read the same everywhere are one list: the lowest listed address is
the lowest that does not read 0. -/
theorem eq_of_read_eq {m m' : Memory} {lo lo' : Nat} (hm : m.wfFrom lo = true)
    (hm' : m'.wfFrom lo' = true) (h : ∀ a, m.read a = m'.read a) : m = m' := by
  induction m generalizing m' lo lo' with
  | nil =>
    cases m' with
    | nil => rfl
    | cons c' m' =>
      obtain ⟨k', b'⟩ := c'
      obtain ⟨-, -, hb', -⟩ := wfFrom_cons.1 hm'
      exact absurd ((h k').trans (if_pos rfl)).symm hb'
  | cons c m ih =>
    obtain ⟨k, b⟩ := c
    obtain ⟨-, hk, hb, hrest⟩ := wfFrom_cons.1 hm
    cases m' with
    | nil => exact absurd ((if_pos rfl).symm.trans (h k)) hb
    | cons c' m' =>
      obtain ⟨k', b'⟩ := c'
      obtain ⟨-, hk', hb', hrest'⟩ := wfFrom_cons.1 hm'
      have hle : k ≤ k' := le_of_read_ne_zero (wfFrom_cons.2 ⟨le_rfl, hk, hb, hrest⟩)
        (by rw [h k', read_cons, if_pos rfl]; exact hb')
      have hge : k' ≤ k := le_of_read_ne_zero (wfFrom_cons.2 ⟨le_rfl, hk', hb', hrest'⟩)
        (by rw [← h k, read_cons, if_pos rfl]; exact hb)
      obtain rfl : k = k' := Nat.le_antisymm hle hge
      have hbb : b = b' := by simpa only [read_cons, if_pos] using h k
      have htail : ∀ a, Memory.read m a = Memory.read m' a := by
        intro a
        by_cases hka : k = a
        · have hlt : a < k + 1 := by omega
          rw [read_eq_zero_of_lt hrest hlt, read_eq_zero_of_lt hrest' hlt]
        · simpa only [read_cons, if_neg hka] using h a
      rw [hbb, ih hrest hrest' htail]

variable {s} {t : State}

theorem v_eq_of_getV_eq (h : ∀ r, s.getV r = t.getV r) : s.v = t.v :=
  Vector.ext fun k hk => h ⟨k, hk⟩

theorem stack_eq_of_getSlot_eq (h : ∀ k, s.getSlot k = t.getSlot k) : s.stack = t.stack :=
  Vector.ext fun k hk => h ⟨k, hk⟩

/-- The parts of R20 determine a state with canonical memory. -/
theorem eq_of_look_eq (hs : s.mem.wf = true) (ht : t.mem.wf = true)
    (h : ∀ p, s.look p = t.look p) : s = t := by
  have hmem : s.mem = t.mem := eq_of_read_eq hs ht fun a => PartValue.byte.inj (h (.memByte a))
  have hv : s.v = t.v := v_eq_of_getV_eq fun r => PartValue.byte.inj (h (.reg r))
  have hstack : s.stack = t.stack :=
    stack_eq_of_getSlot_eq fun k => PartValue.word.inj (h (.slot k))
  have hfb : s.fb = t.fb :=
    Vector.ext fun j hj => PartValue.byte.inj (h (.fbByte ⟨j, hj⟩))
  have hi : s.i = t.i := PartValue.word.inj (h .index)
  have hpc : s.pc = t.pc := PartValue.word.inj (h .pc)
  have hsp : s.sp = t.sp := Fin.ext (PartValue.num.inj (h .sp))
  have hdt : s.dt = t.dt := PartValue.byte.inj (h .dt)
  have hst : s.st = t.st := PartValue.byte.inj (h .st)
  have hcycles : s.cycles = t.cycles := PartValue.num.inj (h .cycles)
  have hstatus : s.status = t.status := PartValue.status.inj (h .status)
  have hdraws : s.draws = t.draws := PartValue.num.inj (h .draws)
  cases s
  cases t
  rw [State.mk.injEq]
  exact ⟨hmem, hv, hi, hpc, hsp, hstack, hdt, hst, hfb, hcycles, hstatus, hdraws⟩

/-! ### Registers an instruction leaves -/

/-- The two writes of the register add leave every register but the destination and VF. -/
theorem getV_writeSumAndCarry_of_ne (order : AddVf) (s : State) {x r : RegIdx} (hx : r ≠ x)
    (hflag : r ≠ 15) (b : Byte) (c : Bool) :
    (s.writeSumAndCarry order x b c).getV r = s.getV r := by
  cases order with
  | carryWins => exact (getV_setFlag_of_ne _ hflag c).trans (getV_setV_of_ne s hx b)
  | sumWins => exact (getV_setV_of_ne _ hx b).trans (getV_setFlag_of_ne s hflag c)

/-- The writer column of R23: an instruction leaves every register it does not list. -/
theorem exec_getV_of_not_writesReg {i : Instr} {r : RegIdx} (h : exec i s = .next t)
    (hr : i.writesReg r = false) : t.getV r = s.getV r := by
  cases i with
  | cls | ret | jmp | call | movI | setDt | addI => injection h with h; subst h; rfl
  | seImm | seReg => injection h with h; rw [← h, skipIf_eq]; rfl
  | movImm | movReg | addImm | andReg | rnd | getDt =>
    injection h with h
    rw [← h]
    exact getV_setV_of_ne s (ne_of_beq_false hr) _
  | addReg x y =>
    injection h with h
    obtain ⟨hx, hflag⟩ := Bool.or_eq_false_iff.1 hr
    rw [← h]
    exact getV_writeSumAndCarry_of_ne _ s (ne_of_beq_false hx) (ne_of_beq_false hflag) _ _
  | drw x y n =>
    injection h with h
    rw [← h]
    exact getV_setFlag_of_ne _ (ne_of_beq_false hr) _
  | ldm x =>
    injection h with h
    have hxr : ¬ r.val < x.val + 1 := fun hlt =>
      of_decide_eq_false hr (Fin.le_def.2 (Nat.le_of_lt_succ hlt))
    rw [← h, getV_loadRegs s (by omega) r, if_neg hxr]

/-! ### Parts an instruction does not use -/

/-- `f` changes only parts of the state that instruction `i` neither reads nor writes: the parts it
uses are as they were, and each of its writes commutes with `f`. A field holds by `rfl` where `f` is
a record update of other fields. -/
structure Unseen (i : Instr) (f : State → State) : Prop where
  v : ∀ s, (f s).v = s.v := by intros; rfl
  mem : ∀ s, (f s).mem = s.mem := by intros; rfl
  draws : ∀ s, (f s).draws = s.draws := by intros; rfl
  setV : ∀ s r b, f (s.setV r b) = (f s).setV r b := by intros; rfl
  countDraw : ∀ s, f s.countDraw = (f s).countDraw := by intros; rfl
  pc : i.writesPc = true → ∀ s, (f s).pc = s.pc := by intros; rfl
  setPc : i.writesPc = true → ∀ s a, f (s.setPc a) = (f s).setPc a := by intros; rfl
  index : i.usesIndex = true → ∀ s, (f s).i = s.i := by intros; rfl
  setI : i.usesIndex = true → ∀ s a, f (s.setI a) = (f s).setI a := by intros; rfl
  pushPc : i.usesStack = true → ∀ s, f s.pushPc = (f s).pushPc := by intros; rfl
  popPc : i.usesStack = true → ∀ s, f s.popPc = (f s).popPc := by intros; rfl
  dt : i.usesDt = true → ∀ s, (f s).dt = s.dt := by intros; rfl
  setDt : i.usesDt = true → ∀ s b, f (s.setDt b) = (f s).setDt b := by intros; rfl
  fb : i.usesFb = true → ∀ s, (f s).fb = s.fb := by intros; rfl
  setFb : i.usesFb = true → ∀ s fb, f (s.setFb fb) = (f s).setFb fb := by intros; rfl

namespace Unseen

variable {i : Instr} {f : State → State}

theorem getV (hf : Unseen i f) (s : State) (r : RegIdx) : (f s).getV r = s.getV r :=
  getV_congr (hf.v s) r

theorem writeSumAndCarry (hf : Unseen i f) (order : AddVf) (s : State) (x : RegIdx) (b : Byte)
    (c : Bool) : f (s.writeSumAndCarry order x b c) = (f s).writeSumAndCarry order x b c := by
  cases order <;> simp [State.writeSumAndCarry, State.setFlag, hf.setV]

theorem skipIf (hf : Unseen i f) (hi : i.writesPc = true) (s : State) (c : Bool) :
    f (s.skipIf c) = (f s).skipIf c := by
  rw [skipIf_eq, skipIf_eq, hf.setPc hi, hf.pc hi]

theorem loadRegs (hf : Unseen i f) (hi : i.usesIndex = true) (s : State) (n : Nat) :
    f (s.loadRegs n) = (f s).loadRegs n := by
  induction n with
  | zero => rfl
  | succ k ih =>
    rw [State.loadRegs, State.loadRegs, hf.setV, ← ih, indexByte_congr (hf.mem _) (hf.index hi _)]

theorem drawSprite (hf : Unseen i f) (hi : i.usesIndex = true) (hfb : i.usesFb = true)
    (tail : FbTail) (s : State) (x y : RegIdx) (n : Nat) :
    f (State.drawSprite tail s x y n) = State.drawSprite tail (f s) x y n := by
  simp only [State.drawSprite, State.setFlag, hf.getV, hf.setV, hf.setFb hfb,
    drawRows_congr tail (hf.fb hfb s) (hf.mem s) (hf.index hi s)]

/-- An instruction commutes with a change to parts it does not use: it does not see the change, and
leaves it in place. -/
theorem exec_comm (hf : Unseen i f) {s t : State} (h : exec i s = .next t) :
    exec i (f s) = .next (f t) := by
  cases i with
  | cls => cases h; rw [exec_cls, hf.setFb rfl]
  | ret => cases h; rw [exec_ret, hf.popPc rfl]
  | jmp a => cases h; rw [exec_jmp, hf.setPc rfl]
  | call a => cases h; rw [exec_call, hf.setPc rfl, hf.pushPc rfl]
  | seImm x nn => cases h; rw [exec_seImm, hf.getV, hf.skipIf rfl]
  | seReg x y => cases h; rw [exec_seReg, hf.getV, hf.getV, hf.skipIf rfl]
  | movImm x nn => cases h; rw [exec_movImm, hf.setV]
  | addImm x nn => cases h; rw [exec_addImm, hf.getV, hf.setV]
  | movReg x y => cases h; rw [exec_movReg, hf.getV, hf.setV]
  | andReg x y => cases h; rw [exec_andReg, hf.getV, hf.getV, hf.setV]
  | addReg x y =>
    cases h
    rw [exec_addReg, State.addReg, State.addReg, hf.getV, hf.getV, hf.writeSumAndCarry]
  | movI a => cases h; rw [exec_movI, hf.setI rfl]
  | rnd x nn => cases h; rw [exec_rnd, hf.draws, ← hf.setV, ← hf.countDraw]; rfl
  | drw x y n => cases h; rw [exec_drw, hf.drawSprite rfl rfl]
  | getDt x => cases h; rw [exec_getDt, hf.dt rfl, hf.setV]
  | setDt x => cases h; rw [exec_setDt, hf.getV, hf.setDt rfl]
  | addI x => cases h; rw [exec_addI, hf.index rfl, hf.getV, hf.setI rfl]
  | ldm x => cases h; rw [exec_ldm, hf.loadRegs rfl]

/-- A part that an instruction does not use is as it was: putting the old value back, which changes
nothing before the instruction, changes nothing after it. -/
theorem eq_of_fixes (hf : Unseen i f) {s t : State} (hs : f s = s) (h : exec i s = .next t) :
    f t = t := by
  have h' := hf.exec_comm h
  rw [hs, h] at h'
  exact (Host.Outcome.next.inj h').symm

end Unseen

theorem unseen_index {i : Instr} (hi : i.usesIndex = false) (a : Word) :
    Unseen i fun s => { s with i := a } where
  index h := nomatch hi.symm.trans h
  setI h := nomatch hi.symm.trans h

theorem unseen_sp {i : Instr} (hi : i.usesStack = false) (k : Fin stackDepth) :
    Unseen i fun s => { s with sp := k } where
  pushPc h := nomatch hi.symm.trans h
  popPc h := nomatch hi.symm.trans h

theorem unseen_stack {i : Instr} (hi : i.usesStack = false) (st : Vector Word stackDepth) :
    Unseen i fun s => { s with stack := st } where
  pushPc h := nomatch hi.symm.trans h
  popPc h := nomatch hi.symm.trans h

theorem unseen_dt {i : Instr} (hi : i.usesDt = false) (b : Byte) :
    Unseen i fun s => { s with dt := b } where
  dt h := nomatch hi.symm.trans h
  setDt h := nomatch hi.symm.trans h

theorem unseen_fb {i : Instr} (hi : i.usesFb = false) (fb : Framebuffer) :
    Unseen i fun s => { s with fb := fb } where
  fb h := nomatch hi.symm.trans h
  setFb h := nomatch hi.symm.trans h

/-- The two users of the stack are control instructions (R26, R27). -/
theorem writesPc_of_usesStack {i : Instr} (h : i.usesStack = true) : i.writesPc = true := by
  cases i with
  | call | ret => rfl
  | cls | jmp | seImm | seReg | movImm | addImm | movReg | andReg | addReg | movI | rnd | drw
  | getDt | setDt | addI | ldm => nomatch h

theorem unseen_pc {i : Instr} (hi : i.writesPc = false) (a : Word) :
    Unseen i fun s => { s with pc := a } where
  pc h := nomatch hi.symm.trans h
  setPc h := nomatch hi.symm.trans h
  pushPc h := nomatch hi.symm.trans (writesPc_of_usesStack h)
  popPc h := nomatch hi.symm.trans (writesPc_of_usesStack h)

theorem unseen_scheduler (i : Instr) (b : Byte) (c : Nat) (q : Status) :
    Unseen i fun s => { s with st := b, cycles := c, status := q } where

/-! ### The sprite sees `I` through its bytes alone -/

/-- What the rows of a sprite draw depends on the framebuffer and the bytes of the rows alone. -/
theorem drawRows_congr_bytes (tail : FbTail) (hfb : t.fb = s.fb) (x0 y0 : Byte) {n : Nat}
    (hbytes : ∀ k, k < n → t.indexByte k = s.indexByte k) :
    t.drawRows tail x0 y0 n = s.drawRows tail x0 y0 n := by
  induction n with
  | zero => simp [State.drawRows, hfb]
  | succ k ih =>
    rw [State.drawRows, State.drawRows, ih fun j hj => hbytes j (by omega), hbytes k (by omega)]

/-- `drw` with another `I` that reaches the same bytes draws the same. -/
theorem drawSprite_with_index (tail : FbTail) (s : State) (x y : RegIdx) {n : Nat} (a : Word)
    (hbytes : ∀ k, k < n → State.indexByte { s with i := a } k = s.indexByte k) :
    State.drawSprite tail { s with i := a } x y n =
      { State.drawSprite tail s x y n with i := a } := by
  have hrows : ∀ x0 y0, State.drawRows tail { s with i := a } x0 y0 n =
      s.drawRows tail x0 y0 n := fun x0 y0 =>
    drawRows_congr_bytes (s := s) (t := { s with i := a }) tail rfl x0 y0 hbytes
  rw [drawSprite_eq, drawSprite_eq, hrows]
  rfl

/-! ### `pc` in the execute phase -/

/-- An instruction that is no control instruction leaves `pc`. -/
theorem exec_pc_of_not_writesPc {i : Instr} (hi : i.writesPc = false) (h : exec i s = .next t) :
    t.pc = s.pc :=
  (congrArg State.pc ((unseen_pc hi s.pc).eq_of_fixes rfl h)).symm

/-- Of the instructions that write `pc`, only `call` lets its old value reach another part of the
state. -/
theorem exec_with_pc_of_writesPc {i : Instr} {u : State} {a : Word} (hi : i.writesPc = true)
    (hcall : ∀ nnn, i ≠ .call nnn) (ht : exec i s = .next t)
    (hu : exec i { s with pc := a } = .next u) : { u with pc := t.pc } = t := by
  cases i with
  | call nnn => exact absurd rfl (hcall nnn)
  | ret | jmp => cases ht; cases hu; rfl
  | seImm | seReg => cases ht; cases hu; rw [skipIf_eq, skipIf_eq]; rfl
  | cls | movImm | addImm | movReg | andReg | addReg | movI | rnd | drw | getDt | setDt | addI
  | ldm => nomatch hi

/-! ### Pixels -/

/-- Masking with a single bit tests that bit. -/
theorem and_shiftLeft_one_ne_zero (b : Byte) {m : Nat} (hm : m < 8) :
    ((b &&& (1#8 <<< m)) != 0) = b.getLsbD m := by
  have hpow : 1#8 <<< m = BitVec.twoPow 8 m := rfl
  rw [hpow, BitVec.and_twoPow]
  cases h : b.getLsbD m with
  | false => simp
  | true =>
    have hne : BitVec.twoPow 8 m ≠ 0 := fun h0 => by simpa [hm] using congrArg (·.getLsbD m) h0
    simpa using hne

end Sys2Proof.Machine
end

section
/-! The statements of spec/10_state.md, settled from the rules above. -/

namespace Sys2Proof.Proofs

open Sys2Proof Sys2Proof.Machine

/-- Settles O13: canonical memory is determined by its reads, and each other field is a part. -/
theorem statesThatAgreeInEveryPartAreEqual : Obligations.StatesThatAgreeInEveryPartAreEqual :=
  fun _ _ hs ht h => eq_of_look_eq hs ht h

/-- Settles O15: the register file is a vector, and R23's writer column is complete. -/
theorem registersReadAsLastWritten : Obligations.RegistersReadAsLastWritten := by
  refine ⟨getV_setV, ?_, fun i s t r h hr => exec_getV_of_not_writesReg h hr⟩
  intro r
  exact Vector.getElem_replicate _

/-- Settles O16: an instruction that changes VF lists it in R23's writer column, and apart from the
register add and the sprite that column holds named destinations alone. -/
theorem flagRegisterSideEffectsAreAddAndDraw :
    Obligations.FlagRegisterSideEffectsAreAddAndDraw := by
  intro i s t h hchange
  have hw : i.writesReg 15 = true := by
    by_contra hno
    exact hchange (exec_getV_of_not_writesReg h (Bool.eq_false_iff.2 hno))
  cases i with
  | cls | ret | jmp | call | seImm | seReg | movI | setDt | addI => nomatch hw
  | addReg | drw => simp
  | movImm | movReg | addImm | andReg | rnd | getDt => obtain rfl := eq_of_beq hw; simp
  | ldm x =>
    obtain rfl : 15 = x := Fin.le_antisymm (of_decide_eq_true hw) (Fin.le_last x)
    simp

/-- Settles O17, from the commutation of the other instructions with a change of `I`, and from what
each of the four users does with it. -/
theorem indexRegisterHasItsFourUsers : Obligations.IndexRegisterHasItsFourUsers := by
  refine ⟨fun i s t a hi h => (unseen_index hi a).exec_comm h, ?movI, ?addI, ?ldm, ?drw, ?bytes,
    fun s k => congrArg s.mem.read (maskAddr_eq_and _), rfl⟩
  case movI => exact fun nnn s => ⟨_, exec_movI s nnn, toNat_absoluteAddr nnn⟩
  case addI =>
    intro x s
    refine ⟨_, exec_addI s x, ?_⟩
    rw [setI_i, BitVec.toNat_add, BitVec.toNat_setWidth_of_le (by decide)]
  case ldm =>
    intro x s
    refine ⟨_, exec_ldm s x, by rw [loadRegs_eq], fun k hk => ?_⟩
    rw [getV_loadRegs s (by omega), if_pos (Nat.lt_succ_of_le (Fin.le_def.1 hk))]
  case drw => exact fun x y n s => ⟨_, exec_drw s x y n, rfl⟩
  case bytes =>
    intro x y n s t a hbytes h
    cases h
    rw [exec_drw, drawSprite_with_index _ s x y a hbytes]

/-- Settles O18: the push and the pop move SP in `Fin 16`, and no other instruction uses it. -/
theorem stackPointerWrapsOnCallAndReturn : Obligations.StackPointerWrapsOnCallAndReturn := by
  refine ⟨?call, ?ret, fun i s t k hi h => (unseen_sp hi k).exec_comm h, rfl⟩
  case call =>
    exact fun nnn s => ⟨_, exec_call s nnn, val_slot_add_one s.sp, getSlot_pushPc s⟩
  case ret => exact fun s => ⟨_, exec_ret s, val_slot_sub_one s.sp⟩

/-- Settles O19: `call` writes the slot at SP, `ret` writes none, and no other instruction uses the
stack. -/
theorem stackEntriesAreForCallAndReturnOnly : Obligations.StackEntriesAreForCallAndReturnOnly := by
  refine ⟨fun i s t st hi h => (unseen_stack hi st).exec_comm h, ?call, ?ret, ?reset⟩
  case call =>
    intro nnn s t h k
    cases h
    exact getSlot_pushPc_eq s k
  case ret =>
    intro s t h k
    cases h
    rfl
  case reset => exact fun k => Vector.getElem_replicate _

/-- Settles O20: the two timer instructions copy `DT`, the tick is an exact difference clamped at
zero, and no other instruction uses `DT`. -/
theorem delayTimerHasItsThreeUsers : Obligations.DelayTimerHasItsThreeUsers := by
  refine ⟨fun i s t b hi h => (unseen_dt hi b).exec_comm h,
    fun x s => ⟨_, exec_setDt s x, rfl⟩,
    fun x s => ⟨_, exec_getDt s x, getV_setV_self s x s.dt, rfl⟩, ?tick, rfl⟩
  case tick =>
    intro s
    rw [State.tick, tickWith_dt, toNat_countDown]
    exact Nat.sub_le _ _

/-- Settles O21: no instruction writes the three parts, and none sees a change of them. -/
theorem instructionsDoNotSeeTheScheduler : Obligations.InstructionsDoNotSeeTheScheduler := by
  intro i s t b c q h
  obtain ⟨-, hst, hcycles, hstatus⟩ := exec_keeps h
  exact ⟨hst, hcycles, hstatus, (unseen_scheduler i b c q).exec_comm h⟩

/-- Settles O22: the pixel test masks one bit of one byte, and only `cls` and `drw` use the
framebuffer. -/
theorem framebufferLayoutAndUsers : Obligations.FramebufferLayoutAndUsers := by
  refine ⟨?layout, fun i s t fb hi h => (unseen_fb hi fb).exec_comm h, fun _ _ _ => rfl,
    fun j => Vector.getElem_replicate _⟩
  case layout =>
    intro fb col row hc hr
    have hbyte : (row * 64 + col) / 8 = 8 * row + col / 8 := by omega
    have hbit : (row * 64 + col) % 8 = col % 8 := by omega
    have htest : pixelOn fb col row
        = (fb.get .drop (8 * row + col / 8)).getLsbD (7 - col % 8) :=
      and_shiftLeft_one_ne_zero _ (by omega)
    refine ⟨?_, ?_⟩
    · rw [htest, get_of_lt]
    · rw [htest, Framebuffer.pixel, hbyte, hbit]

/-- Settles O29: a change of `pc` is unseen by every instruction that does not write it, and of
those that do, only `call` stores it. -/
theorem onlyControlInstructionsUseThePc : Obligations.OnlyControlInstructionsUseThePc := by
  refine ⟨fun i s t hi h => exec_pc_of_not_writesPc hi h, ?_⟩
  intro i s t u a ht hu hcall
  cases hi : i.writesPc with
  | true => exact exec_with_pc_of_writesPc hi hcall ht hu
  | false =>
    have hu' := (unseen_pc hi a).exec_comm ht
    rw [hu] at hu'
    rw [Host.Outcome.next.inj hu']

end Sys2Proof.Proofs
end

section
/-! Rules about memory and the step that the statements of spec/20_memory.md rest on: the fetched
word as a number, that a step of a running machine answers, and what a step leaves of memory, of `ST`
and of the status. -/

namespace Sys2Proof.Machine

/-! ### The fetched word -/

/-- Two bytes as a number, high byte first (R55). -/
theorem toNat_wordOfBytes (hi lo : Byte) : (wordOfBytes hi lo).toNat = 256 * hi.toNat + lo.toNat := by
  rw [wordOfBytes, BitVec.toNat_append, ← Nat.shiftLeft_add_eq_or_of_lt lo.isLt, Nat.shiftLeft_eq,
    Nat.mul_comm]

variable {s t : State}

theorem memRead_eq_read_and (s : State) (a : Nat) : s.memRead a = s.mem.read (a &&& 0xFFF) :=
  congrArg s.mem.read (maskAddr_eq_and a)

/-- The fetched word as a number: two bytes, each at its own masked address (R55, R58, R103). -/
theorem toNat_fetchWord (s : State) : s.fetchWord.toNat =
    256 * (s.mem.read (s.pc.toNat &&& 0xFFF)).toNat
      + (s.mem.read ((s.pc.toNat + 1) &&& 0xFFF)).toNat := by
  rw [State.fetchWord, State.wordAt, toNat_wordOfBytes, memRead_eq_read_and, memRead_eq_read_and]

/-! ### What a step of a running machine answers -/

/-- Execute answers a next state for every instruction in every state (R105). -/
theorem exec_answers (i : Instr) (s : State) : ∃ t, exec i s = .next t := by
  cases i <;> exact ⟨_, rfl⟩

theorem step_of_instr {i : Instr} {u : State} (hrun : s.status = .running)
    (hdec : decode s.fetchWord = .instr i) (hexec : exec i s.advancePc = .next u) :
    step s = .next u.tick := by
  simp only [step, hrun, hdec, hexec, Result.thenTick]

theorem step_of_invalid (hrun : s.status = .running) (hdec : decode s.fetchWord = .invalid) :
    step s = .next (s.advancePc.raiseInvalidOpcode s.pc s.fetchWord) := by
  simp only [step, hrun, hdec]

/-- A step of a running machine answers a next state, whatever it fetches. -/
theorem step_answers (hrun : s.status = .running) : ∃ t, step s = .next t := by
  cases hdec : decode s.fetchWord with
  | instr i =>
    obtain ⟨u, hexec⟩ := exec_answers i s.advancePc
    exact ⟨_, step_of_instr hrun hdec hexec⟩
  | invalid => exact ⟨_, step_of_invalid hrun hdec⟩

/-! ### What a step keeps -/

/-- No step writes memory (R59, D15). -/
theorem step_mem (h : step s = .next t) : t.mem = s.mem := by
  obtain ⟨-, ⟨i, u, -, hexec, rfl⟩ | ⟨-, rfl⟩⟩ := step_next_cases h
  · obtain ⟨hmem, -⟩ := exec_keeps hexec
    exact hmem
  · rfl

/-- A step leaves `ST` at 0: no instruction writes it, and the tick only counts it down (R31, D21). -/
theorem step_st_eq_zero (h : step s = .next t) (hst : s.st = 0) : t.st = 0 := by
  obtain ⟨-, ⟨i, u, -, hexec, rfl⟩ | ⟨-, rfl⟩⟩ := step_next_cases h
  · obtain ⟨-, hkeep, -⟩ := exec_keeps hexec
    have hu : u.st = 0 := hkeep.trans hst
    rw [State.tick, tickWith_st, hu]
    exact countDown_zero _
  · exact hst

/-- A step that leaves a faulted state dispatched an invalid word: the fault records the fetch address
and that word, and `pc` is two past it (R106, R260). -/
theorem step_faulted {info : FaultInfo} (h : step s = .next t) (ht : t.status = .faulted info) :
    info = ⟨s.pc, s.fetchWord⟩ ∧ decode s.fetchWord = .invalid ∧ t.pc = s.pc + 2 := by
  obtain ⟨hrun, ⟨i, u, -, hexec, rfl⟩ | ⟨hdec, rfl⟩⟩ := step_next_cases h
  · obtain ⟨-, -, -, hstatus⟩ := exec_keeps hexec
    have hu : u.status = .running := hstatus.trans hrun
    nomatch hu.symm.trans ht
  · exact ⟨(Status.faulted.inj ht).symm, hdec, rfl⟩

end Sys2Proof.Machine
end

section
/-! The statements of spec/20_memory.md, settled from the rules above. -/

namespace Sys2Proof.Proofs

open Sys2Proof Sys2Proof.Machine

/-- Settles O31: memory is not written, `ST` stays 0, and the one fault a step can leave records the
word it fetched from that same memory. -/
theorem everyStepKeepsTheInvariant : Obligations.EveryStepKeepsTheInvariant := by
  intro s t hinv h
  have hmem : t.mem = s.mem := step_mem h
  exact {
    mem_wf := by rw [hmem]; exact hinv.mem_wf
    reserved_zero := by rw [hmem]; exact hinv.reserved_zero
    sound_zero := step_st_eq_zero h hinv.sound_zero
    fault_true := by
      intro info ht
      obtain ⟨rfl, hdec, hpc⟩ := step_faulted h ht
      exact ⟨(wordAt_congr hmem s.pc).symm, hdec, hpc⟩ }

/-- Settles O14: each access goes through the one masked read, and a running machine's step answers
whatever was fetched. -/
theorem everyMemoryAddressIsMasked : Obligations.EveryMemoryAddressIsMasked :=
  ⟨memRead_eq_read_and, toNat_fetchWord, fun s k => memRead_eq_read_and s (s.i.toNat + k),
    fun _ hrun => step_answers hrun⟩

end Sys2Proof.Proofs
end

section
/-! Rules about the encoding that the statements of spec/30_encoding.md rest on: the fields of a word
in each format, how a word is put together from its fields, when a word matches a row of the opcode
map, and which lines an assembler accepts. -/

namespace Sys2Proof

/-! ### The fields of a word in each format (R72) -/

section Fields

variable (op n : BitVec 4) (x y : RegIdx) (nn : Byte) (nnn : Addr)

@[simp] theorem fieldOp_nnn : fieldOp (op ++ nnn : BitVec 16) = op := (fields_nnn op nnn).1

@[simp] theorem fieldNNN_nnn : fieldNNN (op ++ nnn : BitVec 16) = nnn := (fields_nnn op nnn).2

@[simp] theorem fieldOp_xnn : fieldOp (op ++ regBits x ++ nn : BitVec 16) = op := by
  obtain ⟨h, -, -⟩ := fields_xnn op (regBits x) nn
  exact h

@[simp] theorem fieldX_xnn : fieldX (op ++ regBits x ++ nn : BitVec 16) = x := by
  obtain ⟨-, h, -⟩ := fields_xnn op (regBits x) nn
  exact congrArg BitVec.toFin h

@[simp] theorem fieldNN_xnn : fieldNN (op ++ regBits x ++ nn : BitVec 16) = nn := by
  obtain ⟨-, -, h⟩ := fields_xnn op (regBits x) nn
  exact h

@[simp] theorem fieldOp_xyn : fieldOp (op ++ regBits x ++ regBits y ++ n : BitVec 16) = op := by
  obtain ⟨h, -, -, -⟩ := fields_xyn op (regBits x) (regBits y) n
  exact h

@[simp] theorem fieldX_xyn : fieldX (op ++ regBits x ++ regBits y ++ n : BitVec 16) = x := by
  obtain ⟨-, h, -, -⟩ := fields_xyn op (regBits x) (regBits y) n
  exact congrArg BitVec.toFin h

@[simp] theorem fieldY_xyn : fieldY (op ++ regBits x ++ regBits y ++ n : BitVec 16) = y := by
  obtain ⟨-, -, h, -⟩ := fields_xyn op (regBits x) (regBits y) n
  exact congrArg BitVec.toFin h

@[simp] theorem fieldN_xyn : fieldN (op ++ regBits x ++ regBits y ++ n : BitVec 16) = n := by
  obtain ⟨-, -, -, h⟩ := fields_xyn op (regBits x) (regBits y) n
  exact h

end Fields

/-- The decoder reads back every operand of an encoded instruction (R83): each field of the word is the
operand it was made of. -/
theorem decode_encode (i : Instr) : decode (encode i) = .instr i := by
  cases i with
  | cls | ret => decide
  | jmp | call | movI => simp only [encode, decode, fieldOp_nnn, fieldNNN_nnn]
  | seImm | movImm | addImm | rnd | getDt | setDt | addI | ldm =>
    simp [encode, decode, fieldOp_xnn, fieldX_xnn, fieldNN_xnn]
  | seReg | movReg | andReg | addReg | drw =>
    simp [encode, decode, fieldOp_xyn, fieldX_xyn, fieldY_xyn, fieldN_xyn]

/-! ### A word put together from its fields (R71, R72) -/

section Words

variable {w : Word} {op n : BitVec 4} {nn : Byte}

/-- A word of format `F-nnn` is its opcode and its address. -/
theorem append_fieldNNN (hop : fieldOp w = op) : op ++ fieldNNN w = w := by
  subst hop
  exact (BitVec.extractLsb'_append_extractLsb'_eq_extractLsb' rfl).trans BitVec.extractLsb'_eq_self

/-- A word of format `F-xnn` or `F-x` is its opcode, its register and its low byte. -/
theorem append_fieldNN (hop : fieldOp w = op) (hnn : fieldNN w = nn) :
    op ++ regBits (fieldX w) ++ nn = w := by
  subst hop hnn
  calc fieldOp w ++ regBits (fieldX w) ++ fieldNN w
      = w.extractLsb' 8 8 ++ w.extractLsb' 0 8 :=
        congrArg (· ++ fieldNN w) (BitVec.extractLsb'_append_extractLsb'_eq_extractLsb' rfl)
    _ = w := (BitVec.extractLsb'_append_extractLsb'_eq_extractLsb' rfl).trans
        BitVec.extractLsb'_eq_self

/-- A word of format `F-xy` or `F-xyn` is its opcode, its two registers and its low nibble. -/
theorem append_fieldN (hop : fieldOp w = op) (hn : fieldN w = n) :
    op ++ regBits (fieldX w) ++ regBits (fieldY w) ++ n = w := by
  subst hop hn
  calc fieldOp w ++ regBits (fieldX w) ++ regBits (fieldY w) ++ fieldN w
      = w.extractLsb' 8 8 ++ w.extractLsb' 4 4 ++ fieldN w :=
        congrArg (· ++ regBits (fieldY w) ++ fieldN w)
          (BitVec.extractLsb'_append_extractLsb'_eq_extractLsb' rfl)
    _ = w.extractLsb' 4 12 ++ w.extractLsb' 0 4 :=
        congrArg (· ++ fieldN w) (BitVec.extractLsb'_append_extractLsb'_eq_extractLsb' rfl)
    _ = w := (BitVec.extractLsb'_append_extractLsb'_eq_extractLsb' rfl).trans
        BitVec.extractLsb'_eq_self

end Words

variable {w : Word} {i : Instr}

/-- The encoder puts a decoded word together again from the fields the decoder took it apart into
(R83). -/
theorem encode_of_decode (h : decode w = .instr i) : encode i = w := by
  unfold decode at h
  split at h
  next =>
    split_ifs at h with hcls hret <;> cases h
    · exact hcls.symm
    · exact hret.symm
  next hop => cases h; exact append_fieldNNN hop
  next hop => cases h; exact append_fieldNNN hop
  next hop => cases h; exact append_fieldNN hop rfl
  next hop => split_ifs at h with hn; cases h; exact append_fieldN hop hn
  next hop => cases h; exact append_fieldNN hop rfl
  next hop => cases h; exact append_fieldNN hop rfl
  next hop => split_ifs at h with hn hn hn <;> cases h <;> exact append_fieldN hop hn
  next hop => cases h; exact append_fieldNNN hop
  next hop => cases h; exact append_fieldNN hop rfl
  next hop => cases h; exact append_fieldN hop rfl
  next hop => split_ifs at h with hnn hnn hnn hnn <;> cases h <;> exact append_fieldNN hop hnn
  next => cases h

/-! ### The fields of a word as numbers (R71) -/

section Numbers

variable (w : Word)

theorem toNat_fieldOp : (fieldOp w).toNat = w.toNat / 4096 := by
  have := w.isLt
  rw [fieldOp, BitVec.extractLsb'_toNat, Nat.shiftRight_eq_div_pow]
  omega

theorem val_fieldX : (fieldX w).val = w.toNat / 256 % 16 := by
  rw [← Nat.shiftRight_eq_div_pow _ 8]
  exact BitVec.extractLsb'_toNat 8 4 w

theorem val_fieldY : (fieldY w).val = w.toNat / 16 % 16 := by
  rw [← Nat.shiftRight_eq_div_pow _ 4]
  exact BitVec.extractLsb'_toNat 4 4 w

theorem toNat_fieldN : (fieldN w).toNat = w.toNat % 16 := BitVec.extractLsb'_toNat 0 4 w

theorem toNat_fieldNN : (fieldNN w).toNat = w.toNat % 256 := BitVec.extractLsb'_toNat 0 8 w

/-- The 4-bit immediate as the mask of R73. -/
theorem toNat_fieldN_eq_and : (fieldN w).toNat = w.toNat &&& 0xF :=
  (toNat_fieldN w).trans (Nat.and_two_pow_sub_one_eq_mod _ 4).symm

/-- The 8-bit immediate as the mask of R73. -/
theorem toNat_fieldNN_eq_and : (fieldNN w).toNat = w.toNat &&& 0xFF :=
  (toNat_fieldNN w).trans (Nat.and_two_pow_sub_one_eq_mod _ 8).symm

/-- The 12-bit immediate as the mask of R73. -/
theorem toNat_fieldNNN_eq_and : (fieldNNN w).toNat = w.toNat &&& 0xFFF :=
  (BitVec.extractLsb'_toNat 0 12 w).trans (Nat.and_two_pow_sub_one_eq_mod _ 12).symm

end Numbers

/-! ### The word of each format as a number: the match or-ed with the shifted fields (R83) -/

section Formats

variable (op n : BitVec 4) (x y : RegIdx) (nn : Byte) (nnn : Addr)

theorem toNat_nnn : (op ++ nnn : BitVec 16).toNat = op.toNat <<< 12 ||| nnn.toNat :=
  BitVec.toNat_append op nnn

theorem toNat_xnn : (op ++ regBits x ++ nn : BitVec 16).toNat
    = op.toNat <<< 12 ||| x.val <<< 8 ||| nn.toNat := by
  rw [BitVec.toNat_append, BitVec.toNat_append, Nat.shiftLeft_or_distrib, ← Nat.shiftLeft_add]
  rfl

theorem toNat_xyn : (op ++ regBits x ++ regBits y ++ n : BitVec 16).toNat
    = op.toNat <<< 12 ||| x.val <<< 8 ||| y.val <<< 4 ||| n.toNat := by
  rw [BitVec.toNat_append, BitVec.toNat_append, BitVec.toNat_append]
  simp only [Nat.shiftLeft_or_distrib, ← Nat.shiftLeft_add]
  rfl

/-- Format `F-x`: the low byte belongs to the match. -/
theorem toNat_x : (op ++ regBits x ++ nn : BitVec 16).toNat
    = (op.toNat <<< 12 ||| nn.toNat) ||| x.val <<< 8 :=
  (toNat_xnn op x nn).trans (Nat.or_right_comm ..)

/-- Format `F-xy`: the low nibble belongs to the match. -/
theorem toNat_xy : (op ++ regBits x ++ regBits y ++ n : BitVec 16).toNat
    = (op.toNat <<< 12 ||| n.toNat) ||| x.val <<< 8 ||| y.val <<< 4 := by
  rw [toNat_xyn, Nat.or_right_comm, Nat.or_right_comm (op.toNat <<< 12)]

end Formats

/-! ### The rows of the opcode map (R82) -/

/-- The encoding of an instruction lies in its row. -/
theorem encode_and_mask (i : Instr) : encode i &&& i.row.mask = i.row.pattern := by
  cases i with
  | cls | ret => rfl
  | jmp | call | movI => exact Laws.RowMatch.masked_nnn _ _
  | seImm | movImm | addImm | rnd => exact Laws.RowMatch.masked_xnn _ _ _
  | seReg | movReg | andReg | addReg => exact Laws.RowMatch.masked_xy _ _ _ _
  | drw => exact Laws.RowMatch.masked_xyn _ _ _ _
  | getDt | setDt | addI | ldm => exact Laws.RowMatch.masked_x _ _ _

theorem row_mem_opcodeMap (i : Instr) : i.row ∈ opcodeMap := by
  cases i <;> simp [opcodeMap, Instr.row]

/-- Two rows match a common word only if their patterns agree on the bits that both masks fix. -/
theorem pattern_and_mask_eq {r q : OpcodeRow} (hr : w &&& r.mask = r.pattern)
    (hq : w &&& q.mask = q.pattern) : r.pattern &&& q.mask = q.pattern &&& r.mask := by
  rw [← hr, ← hq, BitVec.and_assoc, BitVec.and_assoc, BitVec.and_comm r.mask]

/-- Any two rows of the opcode map fix some common bit differently. -/
theorem opcodeMap_pairwise_clash :
    opcodeMap.Pairwise fun r q => r.pattern &&& q.mask ≠ q.pattern &&& r.mask := by decide

section Match

variable {p m : Word} {op n : BitVec 4} {nn : Byte}

/-- A mask with ones in a field keeps that field. -/
theorem extractLsb'_and_of_allOnes {s k : Nat} (hm : m.extractLsb' s k = .allOnes k) :
    (w &&& m).extractLsb' s k = w.extractLsb' s k := by
  rw [BitVec.extractLsb'_and, hm, BitVec.and_allOnes]

/-- A row without operands is matched by its pattern alone. -/
theorem eq_of_match (h : w &&& 0xFFFF#16 = p) : p = w := h.symm.trans BitVec.and_allOnes

/-- A word that matches a row of format `F-nnn`, `F-xnn` or `F-xyn` has the row's opcode. -/
theorem op_of_match (h : w &&& 0xF000#16 = op ++ 0#12) : fieldOp w = op := by
  have hop : fieldOp (w &&& 0xF000#16) = fieldOp w := extractLsb'_and_of_allOnes rfl
  rw [← hop, h, fieldOp_nnn]

/-- A word that matches a row of format `F-xy` is the row's opcode and low nibble and two registers. -/
theorem append_of_match_xy (h : w &&& 0xF00F#16 = op ++ regBits 0 ++ regBits 0 ++ n) :
    op ++ regBits (fieldX w) ++ regBits (fieldY w) ++ n = w := by
  have hop : fieldOp (w &&& 0xF00F#16) = fieldOp w := extractLsb'_and_of_allOnes rfl
  have hn : fieldN (w &&& 0xF00F#16) = fieldN w := extractLsb'_and_of_allOnes rfl
  rw [h, fieldOp_xyn] at hop
  rw [h, fieldN_xyn] at hn
  exact append_fieldN hop.symm hn.symm

/-- A word that matches a row of format `F-x` is the row's opcode and low byte and a register. -/
theorem append_of_match_x (h : w &&& 0xF0FF#16 = op ++ regBits 0 ++ nn) :
    op ++ regBits (fieldX w) ++ nn = w := by
  have hop : fieldOp (w &&& 0xF0FF#16) = fieldOp w := extractLsb'_and_of_allOnes rfl
  have hnn : fieldNN (w &&& 0xF0FF#16) = fieldNN w := extractLsb'_and_of_allOnes rfl
  rw [h, fieldOp_xnn] at hop
  rw [h, fieldNN_xnn] at hnn
  exact append_fieldNN hop.symm hnn.symm

end Match

/-- A word that matches a row of the opcode map encodes an instruction: the row's, with the operands in
the word's fields. -/
theorem exists_encode_of_match :
    ∀ r ∈ opcodeMap, w &&& r.mask = r.pattern → ∃ i, encode i = w := by
  simp only [opcodeMap, List.forall_mem_cons]
  exact ⟨
    fun h => ⟨.cls, eq_of_match h⟩,
    fun h => ⟨.ret, eq_of_match h⟩,
    fun h => ⟨.jmp _, append_fieldNNN (op_of_match h)⟩,
    fun h => ⟨.call _, append_fieldNNN (op_of_match h)⟩,
    fun h => ⟨.seImm _ _, append_fieldNN (op_of_match h) rfl⟩,
    fun h => ⟨.seReg _ _, append_of_match_xy h⟩,
    fun h => ⟨.movImm _ _, append_fieldNN (op_of_match h) rfl⟩,
    fun h => ⟨.addImm _ _, append_fieldNN (op_of_match h) rfl⟩,
    fun h => ⟨.movReg _ _, append_of_match_xy h⟩,
    fun h => ⟨.andReg _ _, append_of_match_xy h⟩,
    fun h => ⟨.addReg _ _, append_of_match_xy h⟩,
    fun h => ⟨.movI _, append_fieldNNN (op_of_match h)⟩,
    fun h => ⟨.rnd _ _, append_fieldNN (op_of_match h) rfl⟩,
    fun h => ⟨.drw _ _ _, append_fieldN (op_of_match h) rfl⟩,
    fun h => ⟨.getDt _, append_of_match_x h⟩,
    fun h => ⟨.setDt _, append_of_match_x h⟩,
    fun h => ⟨.addI _, append_of_match_x h⟩,
    fun h => ⟨.ldm _, append_of_match_x h⟩,
    List.forall_mem_nil _⟩

/-- A word decodes to an instruction only if it matches that instruction's row. -/
theorem match_of_decode (h : decode w = .instr i) : w &&& i.row.mask = i.row.pattern := by
  rw [← encode_of_decode h]
  exact encode_and_mask i

/-- The invalid words are those that no row of the opcode map matches (R82). -/
theorem decode_eq_invalid_iff :
    decode w = .invalid ↔ ∀ r ∈ opcodeMap, w &&& r.mask ≠ r.pattern := by
  constructor
  · intro hinv r hr hmatch
    obtain ⟨i, rfl⟩ := exists_encode_of_match r hr hmatch
    nomatch (decode_encode i).symm.trans hinv
  · intro hno
    cases hdec : decode w with
    | instr i => exact absurd (match_of_decode hdec) (hno _ (row_mem_opcodeMap i))
    | invalid => rfl

/-- The decoder's sub-opcode tests fail one after the other for an invalid word. -/
theorem ite_instr_eq_invalid {c : Prop} [Decidable c] {d : Decoded} :
    (if c then .instr i else d) = .invalid ↔ ¬ c ∧ d = .invalid := by
  by_cases hc : c <;> simp [hc]

/-! ### The lines an assembler accepts (R91) -/

section Assembler

variable {o : AsmOperand} {os : List AsmOperand} {l : AsmLine}

/-- A number is an operand of `n` bits exactly when it is below `2 ^ n`. -/
theorem exists_toNat_iff {n v : Nat} : (∃ b : BitVec n, v = b.toNat) ↔ v < 2 ^ n :=
  ⟨fun ⟨b, hb⟩ => hb ▸ b.isLt, fun h => ⟨.ofNatLT v h, rfl⟩⟩

theorem admits_reg_iff : OperandKind.reg.admits o = true ↔ ∃ x : RegIdx, o = .reg x := by
  cases o with
  | reg k =>
    simp only [OperandKind.admits, decide_eq_true_eq, AsmOperand.reg.injEq]
    exact ⟨fun h => ⟨⟨k, Nat.lt_succ_of_le h⟩, rfl⟩, fun ⟨x, hx⟩ => hx ▸ Nat.le_of_lt_succ x.isLt⟩
  | imm | i | dt => simp [OperandKind.admits]

theorem admits_imm4_iff : OperandKind.imm4.admits o = true ↔ ∃ n : BitVec 4, o = .imm n.toNat := by
  cases o with
  | imm v => simp [OperandKind.admits, exists_toNat_iff, Nat.lt_succ_iff]
  | reg | i | dt => simp [OperandKind.admits]

theorem admits_imm8_iff : OperandKind.imm8.admits o = true ↔ ∃ nn : Byte, o = .imm nn.toNat := by
  cases o with
  | imm v => simp [OperandKind.admits, exists_toNat_iff, Nat.lt_succ_iff]
  | reg | i | dt => simp [OperandKind.admits]

theorem admits_imm12_iff :
    OperandKind.imm12.admits o = true ↔ ∃ nnn : Addr, o = .imm nnn.toNat := by
  cases o with
  | imm v => simp [OperandKind.admits, exists_toNat_iff, Nat.lt_succ_iff]
  | reg | i | dt => simp [OperandKind.admits]

theorem admits_i_iff : OperandKind.i.admits o = true ↔ o = .i := by
  cases o <;> simp [OperandKind.admits]

theorem admits_dt_iff : OperandKind.dt.admits o = true ↔ o = .dt := by
  cases o <;> simp [OperandKind.admits]

theorem formAdmits_nil_iff : formAdmits [] os = true ↔ os = [] := by
  cases os <;> simp [formAdmits]

theorem formAdmits_cons_iff {k : OperandKind} {ks : List OperandKind} :
    formAdmits (k :: ks) os = true ↔
      ∃ o, k.admits o = true ∧ ∃ os', formAdmits ks os' = true ∧ os = o :: os' := by
  cases os <;> simp [formAdmits]

/-- A well-formed line is the assembler form of an instruction: each form of R91 is one constructor's. -/
theorem exists_asm_of_wellFormed (h : l.wellFormed = true) : ∃ i : Instr, l = i.asm := by
  obtain ⟨m, os⟩ := l
  cases m
  all_goals
    simp only [AsmLine.wellFormed, Mnemonic.forms, List.any_cons, List.any_nil, Bool.or_false,
      Bool.or_eq_true, formAdmits_cons_iff, formAdmits_nil_iff, admits_reg_iff, admits_imm4_iff,
      admits_imm8_iff, admits_imm12_iff, admits_i_iff, admits_dt_iff, exists_eq_left, ↓existsAndEq,
      true_and] at h
  case cls => subst h; exact ⟨.cls, rfl⟩
  case ret => subst h; exact ⟨.ret, rfl⟩
  case jmp => obtain ⟨a, rfl⟩ := h; exact ⟨.jmp a, rfl⟩
  case call => obtain ⟨a, rfl⟩ := h; exact ⟨.call a, rfl⟩
  case se =>
    obtain ⟨x, nn, rfl⟩ | ⟨x, y, rfl⟩ := h
    · exact ⟨.seImm x nn, rfl⟩
    · exact ⟨.seReg x y, rfl⟩
  case mov =>
    obtain ⟨x, nn, rfl⟩ | ⟨x, y, rfl⟩ | ⟨a, rfl⟩ | ⟨x, rfl⟩ | ⟨x, rfl⟩ := h
    · exact ⟨.movImm x nn, rfl⟩
    · exact ⟨.movReg x y, rfl⟩
    · exact ⟨.movI a, rfl⟩
    · exact ⟨.getDt x, rfl⟩
    · exact ⟨.setDt x, rfl⟩
  case add =>
    obtain ⟨x, nn, rfl⟩ | ⟨x, y, rfl⟩ | ⟨x, rfl⟩ := h
    · exact ⟨.addImm x nn, rfl⟩
    · exact ⟨.addReg x y, rfl⟩
    · exact ⟨.addI x, rfl⟩
  case and => obtain ⟨x, y, rfl⟩ := h; exact ⟨.andReg x y, rfl⟩
  case rnd => obtain ⟨x, nn, rfl⟩ := h; exact ⟨.rnd x nn, rfl⟩
  case drw => obtain ⟨x, y, n, rfl⟩ := h; exact ⟨.drw x y n, rfl⟩
  case ldm => obtain ⟨x, rfl⟩ := h; exact ⟨.ldm x, rfl⟩

/-- No operand in range is truncated (R91). -/
theorem assemble_asm (i : Instr) : i.asm.assemble = some i := by
  have hwf : i.asm.wellFormed = true := wellFormed_all i
  rw [AsmLine.assemble, if_pos hwf]
  cases i <;> simp [Instr.asm]

theorem assemble_eq_some_iff {i : Instr} : l.assemble = some i ↔ l = i.asm := by
  constructor
  · intro h
    have hwf : l.wellFormed = true := by
      by_contra hno
      rw [AsmLine.assemble, if_neg hno] at h
      nomatch h
    obtain ⟨j, rfl⟩ := exists_asm_of_wellFormed hwf
    rw [assemble_asm] at h
    rw [Option.some.inj h]
  · rintro rfl
    exact assemble_asm i

theorem isSome_assemble (l : AsmLine) : l.assemble.isSome = l.wellFormed := by
  cases hwf : l.wellFormed with
  | false => simp [AsmLine.assemble, hwf]
  | true =>
    obtain ⟨i, rfl⟩ := exists_asm_of_wellFormed hwf
    rw [assemble_asm, Option.isSome_some]

end Assembler

end Sys2Proof
end

section
/-! The statements of spec/30_encoding.md, settled from the rules above. -/

namespace Sys2Proof.Proofs

open Sys2Proof Sys2Proof.Machine

/-- Settles O1: the fields of an encoded word are the operands. -/
theorem decodeOfEncodeGivesBackTheInstruction :
    Obligations.DecodeOfEncodeGivesBackTheInstruction := decode_encode

/-- Settles O2: in each branch of the decoder the word is put together again from its fields. -/
theorem encodeOfDecodeGivesBackTheWord : Obligations.EncodeOfDecodeGivesBackTheWord :=
  fun _ _ h => encode_of_decode h

/-- Settles O3: appending the fields is or-ing them, shifted, format by format. -/
theorem encodingIsMatchWithShiftedFields : Obligations.EncodingIsMatchWithShiftedFields := by
  intro i
  cases i with
  | cls | ret => rfl
  | jmp | call | movI => exact toNat_nnn _ _
  | seImm | movImm | addImm | rnd => exact toNat_xnn _ _ _
  | seReg | movReg | andReg | addReg => exact toNat_xy _ _ _ _
  | drw => exact toNat_xyn _ _ _ _
  | getDt | setDt | addI | ldm => exact toNat_x _ _ _

/-- Settles O4: two rows clash on a bit both fix, and matching a row is being an encoding. -/
theorem validWordsAreTheRowsOfTheOpcodeMap : Obligations.ValidWordsAreTheRowsOfTheOpcodeMap := by
  refine ⟨opcodeMap_pairwise_clash.imp ?_, fun _ _ h => match_of_decode h,
    fun _ => decode_eq_invalid_iff⟩
  rintro r q hclash w ⟨hr, hq⟩
  exact hclash (pattern_and_mask_eq hr hq)

/-- Settles O5: within each primary case of the decoder the class is a statement about the number of
the word. -/
theorem invalidWordsAreTheEightClasses : Obligations.InvalidWordsAreTheEightClasses := by
  intro w
  have hlt := w.isLt
  unfold decode
  split
  all_goals
    simp only [ite_instr_eq_invalid, reduceCtorEq, and_true, false_iff, true_iff, imp_false,
      BitVec.toNat_eq, toNat_fieldOp, toNat_fieldN, toNat_fieldNN, BitVec.reduceToNat] at *
    omega

/-- Settles O6: a decoded word is the encoding of its instruction, whose low field is the immediate; and
an address keeps its value in `pc` and `I`. -/
theorem immediatesAreTheWordMasked : Obligations.ImmediatesAreTheWordMasked := by
  refine ⟨?_, fun a s => ⟨⟨_, exec_jmp s a, toNat_absoluteAddr a⟩,
    ⟨_, exec_call s a, toNat_absoluteAddr a⟩, ⟨_, exec_movI s a, toNat_absoluteAddr a⟩⟩⟩
  intro w i h
  obtain rfl := encode_of_decode h
  cases i with
  | jmp | call | movI => simp only [encode, ← toNat_fieldNNN_eq_and, fieldNNN_nnn]
  | seImm | movImm | addImm | rnd => simp only [encode, ← toNat_fieldNN_eq_and, fieldNN_xnn]
  | drw => simp only [encode, ← toNat_fieldN_eq_and, fieldN_xyn]
  | cls | ret | seReg | movReg | andReg | addReg | getDt | setDt | addI | ldm => trivial

/-- Settles O7: a decoded word is the encoding of its instruction, whose fields are the registers. -/
theorem registerOperandsAreTheirBitFields : Obligations.RegisterOperandsAreTheirBitFields := by
  intro w i h
  obtain rfl := encode_of_decode h
  cases i with
  | seReg | movReg | andReg | addReg | drw =>
    simp only [encode, ← val_fieldX, ← val_fieldY, fieldX_xyn, fieldY_xyn, and_self]
  | seImm | movImm | addImm | rnd | getDt | setDt | addI | ldm =>
    simp only [encode, ← val_fieldX, fieldX_xnn]
  | cls | ret | jmp | call | movI => trivial

/-- Settles O9: a well-formed line is the form of an instruction, and each form assembles to its own. -/
theorem assemblerRefusesOutOfRangeAndNeverTruncates :
    Obligations.AssemblerRefusesOutOfRangeAndNeverTruncates :=
  ⟨fun _ _ => assemble_eq_some_iff, isSome_assemble⟩

/-- Settles O8: the decoder computes each word listed. -/
theorem sampleWordsDecodeAsTheSpecLists : Obligations.SampleWordsDecodeAsTheSpecLists := by
  unfold Obligations.SampleWordsDecodeAsTheSpecLists
  decide

end Sys2Proof.Proofs
end

section
/-! Rules about the step that the statements of spec/40_cycle.md rest on: what `pc` is after the fetch,
what the tick and the fault leave, and the two outcomes of a running machine's step. -/

namespace Sys2Proof.Machine

variable {s t u : State}

/-! ### The advance of `pc` at fetch -/

/-- The advance at fetch as a number (R102). -/
theorem toNat_advancePc_pc (s : State) : s.advancePc.pc.toNat = (s.pc.toNat + 2) % 65536 :=
  BitVec.toNat_add s.pc 2

/-- A skip seen from the fetch address: four bytes on when taken, two when not (R102, R170, R173). -/
theorem toNat_skipIf_beq_advancePc_pc (s : State) (a b : Byte) :
    (s.advancePc.skipIf (a == b)).pc.toNat = (s.pc.toNat + if a = b then 4 else 2) % 65536 := by
  by_cases hab : a = b
  · have htwice : (s.advancePc.skipIf true).pc = s.pc + 4 := BitVec.add_assoc s.pc 2 2
    rw [if_pos hab, beq_iff_eq.2 hab, htwice]
    exact BitVec.toNat_add s.pc 4
  · rw [if_neg hab, beq_false_of_ne hab]
    exact toNat_advancePc_pc s

/-! ### What the tick and the fault leave -/

theorem SameExcept.refl (w : Part → Prop) (s : State) : SameExcept w s s := fun _ _ => rfl

theorem SameExcept.trans {w : Part → Prop} (hst : SameExcept w s t) (htu : SameExcept w t u) :
    SameExcept w s u := fun p hp => (htu p hp).trans (hst p hp)

/-- The tick writes the cycle count and the two timers alone (R206). -/
theorem sameExcept_tick (s : State) :
    SameExcept (fun p => p = .cycles ∨ p = .dt ∨ p = .st) s s.tick := by
  intro p hp
  cases p with
  | cycles | dt | st => simp at hp
  | reg | index | pc | sp | slot | fbByte | memByte | status | draws => rfl

/-- The fetch and the fault write `pc` and the status alone (R106, R260). -/
theorem sameExcept_raiseInvalidOpcode_advancePc (s : State) (a w : Word) :
    SameExcept (fun p => p = .pc ∨ p = .status) s (s.advancePc.raiseInvalidOpcode a w) := by
  intro p hp
  cases p with
  | pc | status => simp at hp
  | reg | index | sp | slot | dt | st | fbByte | memByte | cycles | draws => rfl

/-! ### The two outcomes of a running machine's step -/

/-- Execute answers a next state in the same status, for every instruction in every state (R105). -/
theorem exec_answers_status (i : Instr) (s : State) :
    ∃ t, exec i s = .next t ∧ t.status = s.status := by
  obtain ⟨t, hexec⟩ := exec_answers i s
  obtain ⟨-, -, -, hstatus⟩ := exec_keeps hexec
  exact ⟨t, hexec, hstatus⟩

/-- A valid word leaves a running machine running (R105, R108). -/
theorem step_running_of_instr {i : Instr} (hrun : s.status = .running)
    (hdec : decode s.fetchWord = .instr i) : ∃ t, step s = .next t ∧ t.status = .running := by
  obtain ⟨u, hexec, hstatus⟩ := exec_answers_status i s.advancePc
  exact ⟨u.tick, step_of_instr hrun hdec hexec, hstatus.trans hrun⟩

/-- A step that leaves a machine not running dispatched an invalid word (R105, R106). -/
theorem decode_eq_invalid_of_step_not_running (h : step s = .next t) (ht : t.status ≠ .running) :
    decode s.fetchWord = .invalid := by
  obtain ⟨hrun, ⟨i, -, hdec, -, -⟩ | ⟨hdec, -⟩⟩ := step_next_cases h
  · obtain ⟨t', h', hrun'⟩ := step_running_of_instr hrun hdec
    obtain rfl : t = t' := Host.Outcome.next.inj (h.symm.trans h')
    exact absurd hrun' ht
  · exact hdec

theorem step_of_faulted {info : FaultInfo} (h : s.status = .faulted info) :
    step s = .fault (.stepAfterFault info) := by
  simp only [step, h]

theorem step_of_stopped (h : s.status = .stopped) : step s = .fault .stepAfterStop := by
  simp only [step, h]

/-! ### A jump to its own address -/

/-- A run whose first step answers goes on from the state it answers. -/
theorem run_succ_of_step {M : Host.Core} {s t : M.State} (h : M.step s = .next t) (k : Nat) :
    M.run (k + 1) s = M.run k t := by
  simp only [Host.Core.run, h]

/-- Where the target of the jump is its own address, `pc` comes back to it: the step is a bare tick
(R109). -/
theorem step_of_jumpToSelf {nnn : Addr} (hrun : s.status = .running)
    (hdec : decode s.fetchWord = .instr (.jmp nnn)) (hself : absoluteAddr nnn = s.pc) :
    step s = .next s.tick := by
  have hexec : exec (.jmp nnn) s.advancePc = .next s := by
    rw [exec_jmp, hself]
    rfl
  exact step_of_instr hrun hdec hexec

/-- The tick leaves everything that makes a state jump to itself, so every further step is one more
tick (R109). -/
theorem run_of_jumpToSelf {nnn : Addr} (n : Nat) (hrun : s.status = .running)
    (hdec : decode s.fetchWord = .instr (.jmp nnn)) (hself : absoluteAddr nnn = s.pc) :
    Host.Core.run Sys2Proof.core n s = .next (State.tick^[n] s) := by
  induction n generalizing s with
  | zero => rfl
  | succ n ih =>
    exact (run_succ_of_step (step_of_jumpToSelf hrun hdec hself) n).trans
      (ih (s := s.tick) hrun hdec hself)

/-- Each tick counts one cycle (R34, R206). -/
theorem iterate_tick_cycles (n : Nat) (s : State) : (State.tick^[n] s).cycles = s.cycles + n := by
  induction n with
  | zero => rfl
  | succ n ih =>
    rw [Function.iterate_succ_apply', State.tick, tickWith_cycles, ih, Nat.add_assoc]

/-- Any number of ticks writes the cycle count and the two timers alone (R206). -/
theorem sameExcept_iterate_tick (n : Nat) (s : State) :
    SameExcept (fun p => p = .cycles ∨ p = .dt ∨ p = .st) s (State.tick^[n] s) := by
  induction n with
  | zero => exact SameExcept.refl _ s
  | succ n ih =>
    rw [Function.iterate_succ_apply']
    exact ih.trans (sameExcept_tick _)

end Sys2Proof.Machine
end

section
/-! The statements of spec/40_cycle.md, settled from the rules above. -/

namespace Sys2Proof.Proofs

open Sys2Proof Sys2Proof.Machine

/-- Settles O24: execute runs on the state whose `pc` is two further, and the tick leaves what it did
to `pc` and the stack. -/
theorem programCounterAdvancesAtFetch : Obligations.ProgramCounterAdvancesAtFetch := by
  intro s hrun
  refine ⟨?all, ?straight, ?seImm, ?seReg, ?call, ?invalid⟩
  case all =>
    intro i hdec
    obtain ⟨u, hexec⟩ := exec_answers i s.advancePc
    exact ⟨u, hexec, step_of_instr hrun hdec hexec⟩
  case straight =>
    intro i hdec hi
    obtain ⟨u, hexec⟩ := exec_answers i s.advancePc
    have hpc : u.pc = s.advancePc.pc := exec_pc_of_not_writesPc hi hexec
    exact ⟨u.tick, step_of_instr hrun hdec hexec,
      (congrArg BitVec.toNat hpc).trans (toNat_advancePc_pc s)⟩
  case seImm =>
    intro x nn hdec
    exact ⟨_, step_of_instr hrun hdec (exec_seImm _ x nn),
      toNat_skipIf_beq_advancePc_pc s (s.getV x) nn⟩
  case seReg =>
    intro x y hdec
    exact ⟨_, step_of_instr hrun hdec (exec_seReg _ x y),
      toNat_skipIf_beq_advancePc_pc s (s.getV x) (s.getV y)⟩
  case call =>
    intro nnn hdec
    have hslot : s.advancePc.pushPc.getSlot s.sp = s.advancePc.pc := getSlot_pushPc s.advancePc
    exact ⟨_, step_of_instr hrun hdec (exec_call _ nnn),
      (congrArg BitVec.toNat hslot).trans (toNat_advancePc_pc s)⟩
  case invalid =>
    exact fun hdec => ⟨_, step_of_invalid hrun hdec, toNat_advancePc_pc s, rfl⟩

/-- Settles O28: no instruction writes the status, so a step that changes it dispatched an invalid
word. -/
theorem executeFailsForNoInstruction : Obligations.ExecuteFailsForNoInstruction :=
  ⟨exec_answers_status, fun _ _ => decode_eq_invalid_of_step_not_running⟩

/-- Settles O46: a jump to its own address leaves the state as it was but for the tick. -/
theorem jumpToSelfRunsForEver : Obligations.JumpToSelfRunsForEver :=
  ⟨fun _ _ => step_running_of_instr, fun s _ n hrun hdec hself =>
    ⟨State.tick^[n] s, run_of_jumpToSelf n hrun hdec hself, iterate_tick_cycles n s,
      sameExcept_iterate_tick n s⟩⟩

/-- Settles O23: execute answers, and what it answers is ticked. -/
theorem stepRunsTheDecodedInstruction : Obligations.StepRunsTheDecodedInstruction := by
  intro s i hrun hdec
  obtain ⟨u, hexec⟩ := exec_answers i { s with pc := s.pc + 2 }
  rw [hexec]
  exact step_of_instr hrun hdec hexec

/-- Settles O25: the dispatch of an invalid word is the fetch's advance and the fault. -/
theorem invalidWordLeavesTheFaultedState : Obligations.InvalidWordLeavesTheFaultedState :=
  fun s hrun hdec => ⟨_, step_of_invalid hrun hdec, rfl, rfl, rfl,
    sameExcept_raiseInvalidOpcode_advancePc s s.pc s.fetchWord⟩

/-- Settles O26: a step is enabled in the running status alone. -/
theorem noStepIsEnabledUnlessRunning : Obligations.NoStepIsEnabledUnlessRunning :=
  ⟨fun _ _ => step_of_faulted, fun _ => step_of_stopped⟩

end Sys2Proof.Proofs
end

section
/-! Rules about the ALU that the statements of spec/41_alu.md rest on: the 8-bit add law as numbers,
the bits under a mask, what a write to a register leaves, and the outcomes of `add vX vY` under each
order of its two writes. -/

namespace Sys2Proof.Machine

/-! ### The 8-bit add law (R126) -/

section AddLaw

variable (a b : Byte)

theorem toNat_addSum : (addSum a b).toNat = (a.toNat + b.toNat) % 256 := BitVec.toNat_ofNat _ 8

/-- The sum under the mask R126 writes. -/
theorem toNat_addSum_eq_and : (addSum a b).toNat = (a.toNat + b.toNat) &&& 0xFF :=
  (toNat_addSum a b).trans (Nat.and_two_pow_sub_one_eq_mod _ 8).symm

theorem addCarry_eq_true_iff : addCarry a b = true ↔ a.toNat + b.toNat > 255 := decide_eq_true_iff

/-- The carry as VF holds it (R127). -/
theorem flagByte_addCarry :
    flagByte (addCarry a b) = if a.toNat + b.toNat > 255 then 1 else 0 := by
  simp only [flagByte, addCarry_eq_true_iff]

theorem toNat_flagByte_addCarry :
    (flagByte (addCarry a b)).toNat = if a.toNat + b.toNat > 255 then 1 else 0 := by
  rw [flagByte_addCarry]
  split <;> rfl

end AddLaw

/-! ### Bits under a mask (R134) -/

/-- A masked byte has no bit outside its mask. -/
theorem and_and_not_mask (r m : Byte) : r &&& m &&& ~~~m = 0 := by
  rw [BitVec.and_assoc, BitVec.and_not_self]
  exact BitVec.and_zero

/-- A byte with no bit outside the mask is its own masked value. -/
theorem and_mask_eq_self {v m : Byte} (h : v &&& ~~~m = 0) : v &&& m = v := by
  calc v &&& m = v &&& m ||| v &&& ~~~m := by rw [h]; exact BitVec.or_zero.symm
    _ = v &&& (m ||| ~~~m) := BitVec.and_or_distrib_left.symm
    _ = v := by rw [BitVec.or_not_self, BitVec.and_allOnes]

/-! ### What a write leaves -/

section Frames

variable {s t : State} {w w' : Part → Prop}

/-- A frame with more parts named written. -/
theorem SameExcept.mono (hst : SameExcept w s t) (hw : ∀ p, w p → w' p) : SameExcept w' s t :=
  fun p hp => hst p fun h => hp (hw p h)

/-- Where only the register file differs, the frame is about registers alone. -/
theorem sameExcept_of_getV_eq (ht : t = { s with v := t.v })
    (hv : ∀ r, ¬ w (.reg r) → t.getV r = s.getV r) : SameExcept w s t := by
  intro p hp
  cases p with
  | reg r => exact congrArg PartValue.byte (hv r hp)
  | index | pc | sp | slot | dt | st | fbByte | memByte | cycles | status | draws => rw [ht]; rfl

theorem sameExcept_setV (s : State) (x : RegIdx) (b : Byte) :
    SameExcept (fun p => p = .reg x) s (s.setV x b) :=
  sameExcept_of_getV_eq rfl fun _ hr => getV_setV_of_ne s (fun h => hr (congrArg Part.reg h)) b

theorem sameExcept_countDraw (s : State) : SameExcept (fun p => p = .draws) s s.countDraw := by
  intro p hp
  cases p with
  | draws => exact absurd rfl hp
  | reg | index | pc | sp | slot | dt | st | fbByte | memByte | cycles | status => rfl

/-- What `rnd` writes: its destination and the count of draws alone (R132, R133). -/
theorem sameExcept_countDraw_setV (s : State) (x : RegIdx) (b : Byte) :
    SameExcept (fun p => p = .reg x ∨ p = .draws) s (s.setV x b).countDraw :=
  ((sameExcept_setV s x b).mono fun _ => .inl).trans ((sameExcept_countDraw _).mono fun _ => .inr)

end Frames

/-! ### `add vX vY` under each order of its two writes (R127, R128) -/

section AddReg

variable (order : AddVf) (s : State)

/-- The register add writes its destination and VF alone. -/
theorem sameExcept_addReg (x y : RegIdx) :
    SameExcept (fun p => p = .reg x ∨ p = .reg 15) s (State.addReg order s x y) :=
  sameExcept_of_getV_eq (writeSumAndCarry_eq order s x _ _) fun _ hr =>
    getV_writeSumAndCarry_of_ne order s (fun h => hr (.inl (congrArg Part.reg h)))
      (fun h => hr (.inr (congrArg Part.reg h))) _ _

theorem getV_addReg_dest {x : RegIdx} (hx : x ≠ 15) (y : RegIdx) :
    (State.addReg order s x y).getV x = addSum (s.getV x) (s.getV y) := by
  rw [State.addReg, getV_writeSumAndCarry order s hx, if_neg hx, if_pos rfl]

theorem getV_addReg_flag {x : RegIdx} (hx : x ≠ 15) (y : RegIdx) :
    (State.addReg order s x y).getV 15 = flagByte (addCarry (s.getV x) (s.getV y)) := by
  rw [State.addReg, getV_writeSumAndCarry order s hx, if_pos rfl]

/-- Into VF, with the carry written last. -/
theorem getV_addReg_carryWins (y : RegIdx) :
    (State.addReg .carryWins s 15 y).getV 15 = flagByte (addCarry (s.getV 15) (s.getV y)) := by
  rw [State.addReg, getV_writeSumAndCarry_flag, if_pos rfl]

/-- Into VF, with the sum written last. -/
theorem getV_addReg_sumWins (y : RegIdx) :
    (State.addReg .sumWins s 15 y).getV 15 = addSum (s.getV 15) (s.getV y) := by
  rw [State.addReg, getV_writeSumAndCarry_flag, if_pos rfl]

end AddReg

end Sys2Proof.Machine
end

section
/-! The statements of spec/41_alu.md, settled from the rules above. -/

namespace Sys2Proof.Proofs

open Sys2Proof Sys2Proof.Machine

/-- Settles O34: the law on two bytes, read off the destination of `add vX nn`, and off the
destination and VF of `add vX vY`. -/
theorem eightBitAddLaw : Obligations.EightBitAddLaw := by
  refine ⟨fun a b => ⟨toNat_addSum_eq_and a b, addCarry_eq_true_iff a b⟩, ?addImm, ?addReg⟩
  case addImm =>
    intro x nn s
    refine ⟨_, exec_addImm s x nn, ?_⟩
    rw [getV_setV_self, toNat_addSum]
  case addReg =>
    intro x y s hx
    refine ⟨_, exec_addReg s x y, ?sum, ?carry⟩
    case sum => rw [getV_addReg_dest _ s hx, toNat_addSum]
    case carry => rw [getV_addReg_flag _ s hx, toNat_flagByte_addCarry]

/-- Settles O36: with another destination the two writes do not meet; into VF the later one stays,
whichever the start-up configuration makes it. -/
theorem addRegisterSetsSumAndCarry : Obligations.AddRegisterSetsSumAndCarry := by
  intro x y s
  refine ⟨_, exec_addReg s x y, sameExcept_addReg _ s x y, ?other, ?flag⟩
  case other =>
    intro hx
    refine ⟨?sum, ?carry⟩
    case sum => rw [getV_addReg_dest _ s hx, toNat_addSum]
    case carry => rw [getV_addReg_flag _ s hx, flagByte_addCarry]
  case flag =>
    rintro rfl
    cases Config.startup.addVf with
    | carryWins => rw [getV_addReg_carryWins, toNat_flagByte_addCarry]
    | sumWins => rw [getV_addReg_sumWins, toNat_addSum]

/-- Settles O33: both moves are one register write. -/
theorem movesWriteTheirDestinationOnly : Obligations.MovesWriteTheirDestinationOnly :=
  ⟨fun x nn s => ⟨_, exec_movImm s x nn, getV_setV_self s x nn, sameExcept_setV s x nn⟩,
    fun x y s => ⟨_, exec_movReg s x y, getV_setV_self s x _, sameExcept_setV s x _⟩⟩

/-- Settles O35: the sum is one register write, to VF only where VF is the destination. -/
theorem addImmediateTouchesNoFlag : Obligations.AddImmediateTouchesNoFlag := by
  intro x nn s
  refine ⟨_, exec_addImm s x nn, ?_, sameExcept_setV s x _⟩
  rw [getV_setV_self, toNat_addSum]

/-- Settles O37: the conjunction is one register write, and its bits are those of both operands. -/
theorem andRegisterWritesTheConjunction : Obligations.AndRegisterWritesTheConjunction := by
  intro x y s
  refine ⟨_, exec_andReg s x y, fun k => ?_, sameExcept_setV s x _⟩
  rw [getV_setV_self, BitVec.getLsbD_and]

/-- Settles O38: the byte drawn is written under its mask and counted; to get a value inside the
mask, draw that value. -/
theorem randomIsAFreeByteUnderTheMask : Obligations.RandomIsAFreeByteUnderTheMask := by
  refine ⟨?draw, ?every⟩
  case draw =>
    intro x nn s
    have hx : ((s.setV x (Config.rand8 s.draws &&& nn)).countDraw).getV x
        = Config.rand8 s.draws &&& nn := getV_setV_self s x _
    refine ⟨_, exec_rnd s x nn, hx, ?_, rfl, sameExcept_countDraw_setV s x _⟩
    rw [hx, and_and_not_mask]
  case every =>
    intro x nn v s hv
    exact ⟨v, (getV_setV_self s x _).trans (and_mask_eq_self hv)⟩

end Sys2Proof.Proofs
end

section
/-! Rules about the index register and the block load that the statements of spec/42_index_memory.md
rest on: the sum as a number, what a write of `I` leaves, and the block load by register. -/

namespace Sys2Proof.Machine

variable (s : State)

/-! ### The index register (R150, R153) -/

/-- The 16-bit sum of the index register and a zero-extended byte, as a number (R153). -/
theorem toNat_add_setWidth (a : Word) (b : Byte) :
    (a + b.setWidth 16).toNat = (a.toNat + b.toNat) % 65536 := by
  rw [BitVec.toNat_add, BitVec.toNat_setWidth_of_le (by decide)]

theorem sameExcept_setI (a : Word) : SameExcept (fun p => p = .index) s (s.setI a) := by
  intro p hp
  cases p with
  | index => exact absurd rfl hp
  | reg | pc | sp | slot | dt | st | fbByte | memByte | cycles | status | draws => rfl

/-! ### The block load (R156, R157, R158) -/

/-- The block load up to `x` fills register `k ≤ x` from the masked address `I + k` (R156, R157). -/
theorem getV_loadRegs_of_le {x k : RegIdx} (hk : k ≤ x) :
    (s.loadRegs (x.val + 1)).getV k = s.mem.read ((s.i.toNat + k.val) &&& 0xFFF) := by
  rw [getV_loadRegs s x.isLt, if_pos (Nat.lt_succ_of_le hk)]
  exact memRead_eq_read_and s _

/-- The block load up to `x` leaves the registers above `x`. -/
theorem getV_loadRegs_of_not_le {x k : RegIdx} (hk : ¬ k ≤ x) :
    (s.loadRegs (x.val + 1)).getV k = s.getV k := by
  rw [getV_loadRegs s x.isLt, if_neg fun hlt => hk (Nat.le_of_lt_succ hlt)]

/-- The block load writes the registers up to `x` and nothing else, `I` included (R158). -/
theorem sameExcept_loadRegs (x : RegIdx) :
    SameExcept (fun p => ∃ k : RegIdx, k ≤ x ∧ p = .reg k) s (s.loadRegs (x.val + 1)) :=
  sameExcept_of_getV_eq (loadRegs_eq s _) fun r hr =>
    getV_loadRegs_of_not_le s fun hle => hr ⟨r, hle, rfl⟩

end Sys2Proof.Machine
end

section
/-! The statements of spec/42_index_memory.md, settled from the rules above. -/

namespace Sys2Proof.Proofs

open Sys2Proof Sys2Proof.Machine

/-- Settles O40: the block load fills the registers up to the last one and leaves every other part. -/
theorem blockLoadFillsRegistersFromMemory : Obligations.BlockLoadFillsRegistersFromMemory :=
  fun x s => ⟨_, exec_ldm s x, fun _ => getV_loadRegs_of_le s, sameExcept_loadRegs s x⟩

/-- Settles O39: both instructions are one write of `I`. -/
theorem indexInstructionsWriteTheIndexOnly : Obligations.IndexInstructionsWriteTheIndexOnly :=
  ⟨fun nnn s => ⟨_, exec_movI s nnn, toNat_absoluteAddr nnn, sameExcept_setI s _⟩,
    fun x s => ⟨_, exec_addI s x, toNat_add_setWidth s.i (s.getV x), sameExcept_setI s _⟩⟩

end Sys2Proof.Proofs
end

section
/-! Rules about skips, jumps and the call stack that the statements of spec/43_control_flow.md rest on:
what each control instruction leaves, calls in a row, and the pop that undoes a push. -/

namespace Sys2Proof.Machine

variable {s t : State}

/-! ### Skips and jumps (R170, R173, R176) -/

/-- A skip seen from its own `pc`: two bytes on when taken, none when not (R170, R173). -/
theorem toNat_skipIf_beq_pc (s : State) (a b : Byte) :
    (s.skipIf (a == b)).pc.toNat = (s.pc.toNat + if a = b then 2 else 0) % 65536 := by
  by_cases hab : a = b
  · rw [if_pos hab, beq_iff_eq.2 hab]
    exact toNat_advancePc_pc s
  · rw [if_neg hab, beq_false_of_ne hab]
    exact (Nat.mod_eq_of_lt s.pc.isLt).symm

theorem sameExcept_setPc (s : State) (a : Word) : SameExcept (fun p => p = .pc) s (s.setPc a) := by
  intro p hp
  cases p with
  | pc => exact absurd rfl hp
  | reg | index | sp | slot | dt | st | fbByte | memByte | cycles | status | draws => rfl

theorem sameExcept_skipIf (s : State) (c : Bool) :
    SameExcept (fun p => p = .pc) s (s.skipIf c) := by
  rw [skipIf_eq]
  exact sameExcept_setPc s _

/-! ### The push and the pop (R179, R182) -/

/-- The push writes the slot at `SP` and `SP` alone (R179). -/
theorem sameExcept_pushPc (s : State) :
    SameExcept (fun p => p = .slot s.sp ∨ p = .sp) s s.pushPc := by
  intro p hp
  cases p with
  | sp => exact absurd (.inr rfl) hp
  | slot k =>
    have hk : k ≠ s.sp := fun h => hp (.inl (congrArg Part.slot h))
    exact congrArg PartValue.word (getSlot_pushPc_of_ne s hk)
  | reg | index | pc | dt | st | fbByte | memByte | cycles | status | draws => rfl

/-- What `call` writes: the slot at `SP`, `SP` and `pc` alone (R179). -/
theorem sameExcept_setPc_pushPc (s : State) (a : Word) :
    SameExcept (fun p => p = .slot s.sp ∨ p = .sp ∨ p = .pc) s (s.pushPc.setPc a) :=
  ((sameExcept_pushPc s).mono fun _ => Or.imp_right .inl).trans
    ((sameExcept_setPc s.pushPc a).mono fun _ hp => .inr (.inr hp))

/-- The pop writes `SP` and `pc` alone, and no slot (R182). -/
theorem sameExcept_popPc (s : State) : SameExcept (fun p => p = .sp ∨ p = .pc) s s.popPc := by
  intro p hp
  cases p with
  | sp | pc => simp at hp
  | reg | index | slot | dt | st | fbByte | memByte | cycles | status | draws => rfl

/-- The pop takes `SP` back to where it was before one push (R185). -/
theorem popPc_sp_of_pushed (hsp : t.sp = s.sp + 1) : t.popPc.sp = s.sp := by
  rw [popPc_sp, hsp, add_sub_cancel_right]

/-- The pop reads the slot that the push before it wrote (R185). -/
theorem popPc_pc_of_pushed (hsp : t.sp = s.sp + 1) : t.popPc.pc = t.getSlot s.sp := by
  rw [popPc_pc, hsp, add_sub_cancel_right]

/-! ### Calls in a row (R180) -/

/-- The state after the execute phases of calls to the given targets, one after the other. -/
def State.afterCalls (s : State) : List Addr → State
  | [] => s
  | a :: as => State.afterCalls (s.pushPc.setPc (absoluteAddr a)) as

theorem execSeq_map_call (s : State) (as : List Addr) :
    execSeq (as.map .call) s = .next (s.afterCalls as) := by
  induction as generalizing s with
  | nil => rfl
  | cons a as ih => exact ih (s.pushPc.setPc (absoluteAddr a))

@[simp] theorem afterCalls_status (s : State) (as : List Addr) :
    (s.afterCalls as).status = s.status := by
  induction as generalizing s with
  | nil => rfl
  | cons a as ih => exact ih (s.pushPc.setPc (absoluteAddr a))

/-- Each call moves `SP` one up, modulo the depth (R27, R180). -/
theorem val_afterCalls_sp (s : State) (as : List Addr) :
    (s.afterCalls as).sp.val = (s.sp.val + as.length) % 16 := by
  induction as generalizing s with
  | nil => exact (Nat.mod_eq_of_lt s.sp.isLt).symm
  | cons a as ih =>
    calc (s.afterCalls (a :: as)).sp.val = ((s.sp + 1).val + as.length) % 16 := ih _
      _ = (s.sp.val + (a :: as).length) % 16 := by
        rw [val_slot_add_one, List.length_cons]
        omega

/-- Calls in a row leave a slot that lies at least as many slots above `SP` as there are calls, modulo
the depth (R180). -/
theorem getSlot_afterCalls {k : Fin stackDepth} {as : List Addr}
    (hk : as.length ≤ (k - s.sp).val) : (s.afterCalls as).getSlot k = s.getSlot k := by
  induction as generalizing s with
  | nil => rfl
  | cons a as ih =>
    rw [List.length_cons] at hk
    have hne : k ≠ s.sp := by
      rintro rfl
      rw [sub_self] at hk
      exact absurd hk (Nat.not_succ_le_zero _)
    have hnext : as.length ≤ (k - (s.sp + 1)).val := by
      have hlt : (k - s.sp).val < 16 := (k - s.sp).isLt
      rw [← sub_sub, val_slot_sub_one]
      omega
    exact (ih hnext).trans (getSlot_pushPc_of_ne s hne)

/-- The entry of a call stands as long as fewer calls than the depth follow it (R180). -/
theorem getSlot_afterCalls_cons (s : State) (a : Addr) {as : List Addr} (h : as.length < 16) :
    (s.afterCalls (a :: as)).getSlot s.sp = s.pc := by
  have hfar : as.length ≤ (s.sp - (s.sp + 1)).val := by
    rw [← sub_sub, sub_self]
    exact Nat.le_of_lt_succ h
  exact (getSlot_afterCalls (s := s.pushPc.setPc (absoluteAddr a)) hfar).trans (getSlot_pushPc s)

/-! ### The steps of a call and of a return -/

theorem step_of_call {nnn : Addr} (hrun : s.status = .running)
    (hdec : decode s.fetchWord = .instr (.call nnn)) :
    step s = .next (s.advancePc.pushPc.setPc (absoluteAddr nnn)).tick :=
  step_of_instr hrun hdec (exec_call _ nnn)

theorem step_of_ret (hrun : s.status = .running) (hword : s.fetchWord = 0x00EE) :
    step s = .next s.advancePc.popPc.tick :=
  step_of_instr hrun ((congrArg decode hword).trans (decode_encode .ret)) (exec_ret _)

end Sys2Proof.Machine
end

section
/-! The statements of spec/43_control_flow.md, settled from the rules above. -/

namespace Sys2Proof.Proofs

open Sys2Proof Sys2Proof.Machine

/-- Settles O44: sixteen calls bring `SP` back to 0, the fifteen after the first leave slot 0, and the
next one writes it. -/
theorem seventeenthCallOverwritesTheOldestEntry :
    Obligations.SeventeenthCallOverwritesTheOldestEntry := by
  intro s first rest nnn hsp hlen
  have htop : (s.afterCalls (first :: rest)).sp = 0 := by
    apply Fin.ext
    rw [val_afterCalls_sp, hsp, List.length_cons, hlen]
    rfl
  have hfirst : (s.afterCalls (first :: rest)).getSlot 0 = s.pc :=
    hsp ▸ getSlot_afterCalls_cons s first (by omega)
  have hstatus := afterCalls_status s (first :: rest)
  have hseq := execSeq_map_call s (first :: rest)
  generalize s.afterCalls (first :: rest) = t at htop hfirst hstatus hseq
  have hslot : t.pushPc.getSlot 0 = t.pc := htop ▸ getSlot_pushPc t
  have hup : t.pushPc.sp = 1 := congrArg (· + 1) htop
  have hframe := sameExcept_setPc_pushPc t (absoluteAddr nnn)
  rw [htop] at hframe
  exact ⟨t, _, hseq, htop, hfirst, exec_call t nnn, hslot, hup, hstatus, hframe⟩

/-- Settles O45: the tick and the fetch between the push and the pop leave the stack and `SP`, so the
pop undoes the push. -/
theorem callThenReturnComesBack : Obligations.CallThenReturnComesBack := by
  intro s nnn hrun hdec hret
  have hslot : s.advancePc.pushPc.getSlot s.sp = s.pc + 2 := getSlot_pushPc s.advancePc
  refine ⟨_, _, step_of_call hrun hdec, step_of_ret hrun hret, ?pc, popPc_sp_of_pushed rfl, hslot⟩
  case pc =>
    exact (congrArg BitVec.toNat ((popPc_pc_of_pushed (s := s) rfl).trans hslot)).trans
      (toNat_advancePc_pc s)

/-- Settles O41: a skip and a jump are one write of `pc`. -/
theorem skipsAndJumpWriteThePcOnly : Obligations.SkipsAndJumpWriteThePcOnly :=
  ⟨fun x nn s => ⟨_, exec_seImm s x nn, toNat_skipIf_beq_pc s _ _, sameExcept_skipIf s _⟩,
    fun x y s => ⟨_, exec_seReg s x y, toNat_skipIf_beq_pc s _ _, sameExcept_skipIf s _⟩,
    fun nnn s => ⟨_, exec_jmp s nnn, toNat_absoluteAddr nnn, sameExcept_setPc s _⟩⟩

/-- Settles O42: the push at `SP` and then the write of `pc`. -/
theorem callPushesTheReturnAddress : Obligations.CallPushesTheReturnAddress :=
  fun nnn s => ⟨_, exec_call s nnn, getSlot_pushPc s, val_slot_add_one s.sp, toNat_absoluteAddr nnn,
    sameExcept_setPc_pushPc s _⟩

/-- Settles O43: the pop reads the slot one below and writes none. -/
theorem returnPopsTheSlotBelow : Obligations.ReturnPopsTheSlotBelow :=
  fun s => ⟨_, exec_ret s, val_slot_sub_one s.sp, rfl, sameExcept_popPc s⟩

end Sys2Proof.Proofs
end

section
/-! Rules about the timers that the statements of spec/44_timers.md rest on: the tick count as
arithmetic, one tick and ticks in a row, what a step does to the timers and to the cycle count, and a
frame as a run of steps. -/

namespace Sys2Proof.Machine

/-! ### The tick count (R207, R210) -/

section TickCount

variable (cfg : Config) (c : Nat)

/-- The cycles of a logical second: `FPS * IPF` is positive (R36, D22). -/
theorem fps_mul_ipf_pos : 0 < (cfg.fps : Nat) * (cfg.ipf : Nat) :=
  Nat.mul_pos cfg.fps.pos cfg.ipf.pos

theorem ticks_mono : Monotone (ticks cfg) := fun _ _ h =>
  Nat.div_le_div_right (Nat.mul_le_mul_right 60 h)

/-- A cycle crosses at most `q` boundaries where `q` times `FPS * IPF` reaches 60 (R210). -/
theorem tickCount_le_of_le_mul {q : Nat} (h : 60 ≤ q * ((cfg.fps : Nat) * (cfg.ipf : Nat))) :
    tickCount cfg c ≤ q := by
  have hnext : ticks cfg (c + 1) ≤ ticks cfg c + q := by
    rw [ticks, ticks, ← Nat.add_mul_div_right _ _ (fps_mul_ipf_pos cfg), Nat.succ_mul]
    exact Nat.div_le_div_right (Nat.add_le_add_left h _)
  exact Nat.sub_le_iff_le_add'.2 hnext

/-- A logical second of cycles crosses 60 boundaries (R210). -/
theorem ticks_add_fps_mul_ipf :
    ticks cfg (c + (cfg.fps : Nat) * (cfg.ipf : Nat)) = ticks cfg c + 60 := by
  rw [ticks, ticks, Nat.add_mul, Nat.add_mul_div_left _ _ (fps_mul_ipf_pos cfg)]

/-- `n` cycles take `n * 1000 / (FPS * IPF)` logical milliseconds, from any cycle on (R34, R211). -/
theorem logicalMs_add_sub (n : Nat) :
    logicalMs cfg (c + n) - logicalMs cfg c = n * 1000 / ((cfg.fps : ℚ) * (cfg.ipf : ℚ)) := by
  rw [logicalMs, logicalMs, Nat.cast_add]
  ring

/-- The source's count of ticks is a quotient of natural numbers (R207). -/
theorem logicalMs_mul_div :
    logicalMs cfg c * 60 / 1000
      = ((c * 60 : Nat) : ℚ) / (((cfg.fps : Nat) * (cfg.ipf : Nat) : Nat) : ℚ) := by
  rw [logicalMs, Nat.cast_mul, Nat.cast_mul]
  ring

end TickCount

/-! ### One tick, and ticks in a row (R206, R208) -/

section Tick

variable (cfg : Config) (s : State)

/-- The tick writes the cycle count and the two timers alone, under every configuration (R206). -/
theorem sameExcept_tickWith :
    SameExcept (fun p => p = .cycles ∨ p = .dt ∨ p = .st) s (s.tickWith cfg) := by
  intro p hp
  cases p with
  | cycles | dt | st => simp at hp
  | reg | index | pc | sp | slot | fbByte | memByte | status | draws => rfl

/-- A count down on a byte, as R208 writes the clamp. -/
theorem toNat_countDown_eq_max (k : Nat) (b : Byte) :
    ((countDown k b).toNat : ℤ) = max 0 ((b.toNat : ℤ) - k) := by
  rw [toNat_countDown]
  omega

theorem toNat_countDown_le (k : Nat) (b : Byte) : (countDown k b).toNat ≤ b.toNat :=
  (toNat_countDown k b).trans_le (Nat.sub_le _ _)

theorem iterate_tickWith_cycles (n : Nat) :
    ((State.tickWith cfg)^[n] s).cycles = s.cycles + n := by
  induction n with
  | zero => rfl
  | succ n ih => rw [Function.iterate_succ_apply', tickWith_cycles, ih, Nat.add_assoc]

/-- Ticks in a row take from a timer the boundaries that all their cycles crossed, clamped at zero
(R206, R208). -/
theorem toNat_iterate_tickWith {timer : State → Byte}
    (htimer : ∀ u, timer (u.tickWith cfg) = countDown (tickCount cfg u.cycles) (timer u)) (n : Nat) :
    (timer ((State.tickWith cfg)^[n] s)).toNat
      = (timer s).toNat - (ticks cfg (s.cycles + n) - ticks cfg s.cycles) := by
  induction n with
  | zero => rw [Nat.add_zero, Nat.sub_self]; rfl
  | succ n ih =>
    have hstart : ticks cfg s.cycles ≤ ticks cfg (s.cycles + n) := ticks_mono cfg (by omega)
    have hnext : ticks cfg (s.cycles + n) ≤ ticks cfg (s.cycles + n + 1) := ticks_mono cfg (by omega)
    rw [Function.iterate_succ_apply', htimer, toNat_countDown, ih, iterate_tickWith_cycles, tickCount,
      ← Nat.add_assoc]
    omega

end Tick

/-! ### What instructions and steps do to the timers and the cycle count -/

variable {s t : State}

theorem sameExcept_setDt (s : State) (b : Byte) : SameExcept (fun p => p = .dt) s (s.setDt b) := by
  intro p hp
  cases p with
  | dt => exact absurd rfl hp
  | reg | index | pc | sp | slot | st | fbByte | memByte | cycles | status | draws => rfl

/-- The one instruction that sets `DT` is `mov dt vX` (R30, R203). -/
theorem exec_dt_of_ne_setDt {i : Instr} (hi : ∀ x, i ≠ .setDt x) (h : exec i s = .next t) :
    t.dt = s.dt := by
  cases huse : i.usesDt with
  | false => exact (congrArg State.dt ((unseen_dt huse s.dt).eq_of_fixes rfl h)).symm
  | true =>
    cases i with
    | setDt x => exact absurd rfl (hi x)
    | getDt x => cases h; rfl
    | cls | ret | jmp | call | seImm | seReg | movImm | addImm | movReg | andReg | addReg | movI
    | rnd | drw | addI | ldm => nomatch huse

theorem unseen_cycles (i : Instr) (c : Nat) : Unseen i fun s => { s with cycles := c } where

/-- A step never raises `ST` (R31, R208). -/
theorem step_st_le (h : step s = .next t) : t.st.toNat ≤ s.st.toNat := by
  obtain ⟨-, ⟨i, u, -, hexec, rfl⟩ | ⟨-, rfl⟩⟩ := step_next_cases h
  · obtain ⟨-, hst, -⟩ := exec_keeps hexec
    have hu : u.st = s.st := hst
    exact hu ▸ toNat_countDown_le _ u.st
  · exact Nat.le_refl _

/-- A step that does not set `DT` never raises it (R208). -/
theorem step_dt_le (h : step s = .next t) (hset : ∀ x, decode s.fetchWord ≠ .instr (.setDt x)) :
    t.dt.toNat ≤ s.dt.toNat := by
  obtain ⟨-, ⟨i, u, hdec, hexec, rfl⟩ | ⟨-, rfl⟩⟩ := step_next_cases h
  · have hi : ∀ x, i ≠ .setDt x := fun x hx => hset x (hx ▸ hdec)
    have hu : u.dt = s.dt := exec_dt_of_ne_setDt (s := s.advancePc) hi hexec
    exact hu ▸ toNat_countDown_le _ u.dt
  · exact Nat.le_refl _

/-- A step counts one cycle where it leaves the machine running, and none where it faults (R34, R106,
D28). -/
theorem step_cycles (h : step s = .next t) :
    t.cycles = if t.status = .running then s.cycles + 1 else s.cycles := by
  obtain ⟨hrun, ⟨i, u, -, hexec, rfl⟩ | ⟨-, rfl⟩⟩ := step_next_cases h
  · obtain ⟨-, -, hcycles, hstatus⟩ := exec_keeps hexec
    have ht : u.tick.status = .running := hstatus.trans hrun
    rw [if_pos ht]
    exact congrArg (· + 1) hcycles
  · exact (if_neg fun hrunning => nomatch hrunning).symm

/-! ### Steps in a row (R209) -/

/-- After a step that answers, a row of steps goes on while the machine runs and ends otherwise. -/
theorem runSteps_succ_of_step (hstep : step s = .next t) (n : Nat) :
    runSteps (n + 1) s = if t.status = .running then runSteps n t else .next t := by
  simp only [runSteps, hstep]

/-- What a row of steps of a running machine has done first. -/
theorem runSteps_succ_cases {n : Nat} (hrun : s.status = .running)
    (h : runSteps (n + 1) s = .next t) :
    ∃ u, step s = .next u ∧
      ((u.status = .running ∧ runSteps n u = .next t) ∨ (u.status ≠ .running ∧ u = t)) := by
  obtain ⟨u, hstep⟩ := step_answers hrun
  rw [runSteps_succ_of_step hstep] at h
  refine ⟨u, hstep, ?_⟩
  split at h
  next hu => exact .inl ⟨hu, h⟩
  next hu => exact .inr ⟨hu, Host.Outcome.next.inj h⟩

/-- Steps in a row from a running machine answer a next state (R209, R262). -/
theorem runSteps_answers (n : Nat) (hrun : s.status = .running) : ∃ t, runSteps n s = .next t := by
  induction n generalizing s with
  | zero => exact ⟨s, rfl⟩
  | succ n ih =>
    obtain ⟨u, hstep⟩ := step_answers hrun
    rw [runSteps_succ_of_step hstep]
    split
    next hu => exact ih hu
    next => exact ⟨u, rfl⟩

/-- A row of `n` steps that leaves the machine running took all `n`, one cycle each (R209, R34). -/
theorem run_of_runSteps_running {n : Nat} (hrun : s.status = .running)
    (h : runSteps n s = .next t) (ht : t.status = .running) :
    Host.Core.run Sys2Proof.core n s = .next t ∧ t.cycles = s.cycles + n := by
  induction n generalizing s with
  | zero => cases h; exact ⟨rfl, rfl⟩
  | succ n ih =>
    obtain ⟨u, hstep, ⟨hu, hrest⟩ | ⟨hu, rfl⟩⟩ := runSteps_succ_cases hrun h
    · obtain ⟨hrunN, hcycles⟩ := ih hu hrest
      have hone : u.cycles = s.cycles + 1 := (step_cycles hstep).trans (if_pos hu)
      exact ⟨(run_succ_of_step hstep n).trans hrunN, by omega⟩
    · exact absurd ht hu

/-- A row of steps that leaves the machine not running ended at the step that faulted, after `k` steps
of one cycle each (R209, R106). -/
theorem exists_run_of_runSteps_not_running {n : Nat} (hrun : s.status = .running)
    (h : runSteps n s = .next t) (ht : t.status ≠ .running) :
    ∃ k, k < n ∧ t.cycles = s.cycles + k ∧ Host.Core.run Sys2Proof.core (k + 1) s = .next t := by
  induction n generalizing s with
  | zero => cases h; exact absurd hrun ht
  | succ n ih =>
    obtain ⟨u, hstep, ⟨hu, hrest⟩ | ⟨hu, rfl⟩⟩ := runSteps_succ_cases hrun h
    · obtain ⟨k, hk, hcycles, hrunK⟩ := ih hu hrest
      have hone : u.cycles = s.cycles + 1 := (step_cycles hstep).trans (if_pos hu)
      exact ⟨k + 1, by omega, by omega, (run_succ_of_step hstep (k + 1)).trans hrunK⟩
    · exact ⟨0, by omega, (step_cycles hstep).trans (if_neg hu), run_succ_of_step hstep 0⟩

end Sys2Proof.Machine
end

section
/-! The statements of spec/44_timers.md, settled from the rules above. -/

namespace Sys2Proof.Proofs

open Sys2Proof Sys2Proof.Machine

/-- Settles O47: each copy is one write, and the tick comes after it, so it leaves the value read and
counts down the value set. -/
theorem timerInstructionsCopyBeforeTheTick : Obligations.TimerInstructionsCopyBeforeTheTick := by
  refine ⟨fun x s => ⟨_, exec_getDt s x, getV_setV_self s x s.dt, sameExcept_setV s x s.dt⟩,
    fun x s => ⟨_, exec_setDt s x, rfl, sameExcept_setDt s _⟩, ?getStep, ?setStep⟩
  case getStep =>
    exact fun x s hrun hdec => ⟨_, step_of_instr hrun hdec (exec_getDt _ x),
      getV_setV_self s.advancePc x s.dt⟩
  case setStep =>
    exact fun x s hrun hdec => ⟨_, step_of_instr hrun hdec (exec_setDt _ x),
      toNat_countDown (tickCount Config.startup s.cycles) (s.getV x)⟩

/-- Settles O49: both sides are the floor of the same quotient of natural numbers. -/
theorem ticksAreTheExactFloorOfLogicalTime : Obligations.TicksAreTheExactFloorOfLogicalTime := by
  intro cfg c
  rw [logicalMs_mul_div, Rat.floor_natCast_div_natCast]
  rfl

/-- Settles O50: a count down is clamped and never rises, and between sets the tick alone writes a
timer. -/
theorem timersNeverRiseBetweenSets : Obligations.TimersNeverRiseBetweenSets :=
  ⟨fun _ s => ⟨toNat_countDown_eq_max _ s.dt, toNat_countDown_eq_max _ s.st⟩,
    fun _ _ h => ⟨step_st_le h, step_dt_le h⟩⟩

/-- Settles O51: both bounds on one cycle are multiples of `FPS * IPF` that reach 60. -/
theorem sixtyTicksInEveryLogicalSecond : Obligations.SixtyTicksInEveryLogicalSecond := by
  intro cfg c
  refine ⟨ticks_mono cfg (Nat.le_succ c), tickCount_le_of_le_mul cfg c ?ceiling,
    fun h => tickCount_le_of_le_mul cfg c (h.trans_eq (Nat.one_mul _).symm),
    ticks_add_fps_mul_ipf cfg c⟩
  case ceiling =>
    have hrate := fps_mul_ipf_pos cfg
    rw [← Nat.add_sub_assoc hrate, ← Nat.ceilDiv_eq_add_pred_div, Nat.mul_comm]
    exact le_smul_ceilDiv hrate

/-- Settles O52: ticks in a row take the boundaries of all their cycles, and a logical second has
60. -/
theorem timersLoseSixtyInALogicalSecond : Obligations.TimersLoseSixtyInALogicalSecond := by
  intro cfg s
  have hsixty : ticks cfg (s.cycles + (cfg.fps : Nat) * (cfg.ipf : Nat)) - ticks cfg s.cycles = 60 := by
    rw [ticks_add_fps_mul_ipf, Nat.add_sub_cancel_left]
  exact ⟨hsixty ▸ toNat_iterate_tickWith cfg s (tickWith_dt · cfg) _,
    hsixty ▸ toNat_iterate_tickWith cfg s (tickWith_st · cfg) _, iterate_tickWith_cycles cfg s _⟩

/-- Settles O53: logical time is linear in the cycles, a step that leaves the machine running counts
one, and no instruction sees the count. -/
theorem logicalTimeOfAStepAndAFrame : Obligations.LogicalTimeOfAStepAndAFrame := by
  refine ⟨fun cfg c => ⟨?step, ?frame⟩,
    fun s t h ht => (step_cycles h).trans (if_pos ht),
    fun i s t c h => (unseen_cycles i c).exec_comm h⟩
  case step => rw [logicalMs_add_sub, Nat.cast_one, one_mul]
  case frame =>
    have hipf : ((cfg.ipf : Nat) : ℚ) ≠ 0 := Nat.cast_ne_zero.2 cfg.ipf.ne_zero
    rw [logicalMs_add_sub, mul_comm, mul_div_mul_right _ _ hipf]

/-- Settles O54: a frame is `IPF` steps in a row, which end early only at a step that faults. -/
theorem aFrameIsIpfSteps : Obligations.AFrameIsIpfSteps := by
  intro cfg s hrun
  obtain ⟨t, h⟩ := runSteps_answers cfg.ipf hrun
  exact ⟨t, h, run_of_runSteps_running hrun h, exists_run_of_runSteps_not_running hrun h⟩

/-- Settles O48: the tick is an exact difference clamped at zero, and writes three parts. -/
theorem tickCountsBothTimersDown : Obligations.TickCountsBothTimersDown :=
  fun cfg s => ⟨rfl, toNat_countDown _ s.dt, toNat_countDown _ s.st, sameExcept_tickWith cfg s⟩

end Sys2Proof.Proofs
end

section
/-! Rules about the display that the statements of spec/45_display.md rest on: the byte operations of a
row as numbers, the collision test, byte 256 of the framebuffer, and a whole sprite pixel by pixel. -/

namespace Sys2Proof.Machine

/-! ### The byte operations of a row as numbers (R234) -/

section RowBytes

variable (hi lo new : Byte) (sh : Nat)

theorem toNat_shiftLeft_eq_and (b : Byte) (k : Nat) :
    (b <<< k).toNat = (b.toNat <<< k) &&& 0xFF := by
  rw [BitVec.toNat_shiftLeft]
  exact (Nat.and_two_pow_sub_one_eq_mod _ 8).symm

theorem toNat_rowWindow :
    (rowWindow hi lo sh).toNat = ((hi.toNat <<< sh) ||| (lo.toNat >>> (8 - sh))) &&& 0xFF := by
  have hlo : lo.toNat >>> (8 - sh) < 2 ^ 8 := (lo >>> (8 - sh)).isLt
  have hkeep : lo.toNat >>> (8 - sh) &&& 0xFF = lo.toNat >>> (8 - sh) :=
    (Nat.and_two_pow_sub_one_eq_mod _ 8).trans (Nat.mod_eq_of_lt hlo)
  rw [rowWindow, BitVec.toNat_or, toNat_shiftLeft_eq_and, BitVec.toNat_ushiftRight,
    Nat.and_or_distrib_right, hkeep]

theorem toNat_rowFirst :
    (rowFirst hi new sh).toNat = (hi.toNat &&& (0xFF - (0xFF >>> sh))) ||| (new.toNat >>> sh) := by
  rw [rowFirst, BitVec.toNat_or, BitVec.toNat_and, BitVec.toNat_not, BitVec.toNat_ushiftRight,
    BitVec.toNat_ushiftRight]
  rfl

theorem toNat_rowSecond :
    (rowSecond lo new sh).toNat
      = (lo.toNat &&& (0xFF >>> sh)) ||| ((new.toNat <<< (8 - sh)) &&& 0xFF) := by
  rw [rowSecond, BitVec.toNat_or, BitVec.toNat_and, BitVec.toNat_ushiftRight,
    toNat_shiftLeft_eq_and]
  rfl

end RowBytes

/-! ### The collision test (R238) -/

/-- A pixel that was on and is off after the XOR is a set source bit on a set pixel. -/
theorem not_xor_and_self (old src : Byte) : ~~~(old ^^^ src) &&& old = old &&& src := by
  ext i hi
  simp only [BitVec.getElem_and, BitVec.getElem_not, BitVec.getElem_xor]
  cases old[i] <;> cases src[i] <;> rfl

theorem collides_xor (old src : Byte) : collides old (old ^^^ src) = ((old &&& src) != 0) := by
  rw [collides, not_xor_and_self]

/-! ### Bytes and pixels of the framebuffer -/

/-- Every byte after a write to byte index `k`, 256 included (R233). -/
theorem getElem_put (tail : FbTail) (fb : Framebuffer) (b : Byte) {j k : Nat} (hj : j < fbBytes)
    (hk : k ≤ fbBytes) :
    (fb.put tail k b)[j] = if j = k ∨ (k = fbBytes ∧ tail = .wrap ∧ j = 0) then b else fb[j] := by
  rw [← get_of_lt .drop (fb.put tail k b) hj, ← get_of_lt .drop fb hj]
  obtain hlt | rfl := Nat.lt_or_eq_of_le hk
  · rw [get_put tail fb b hj hlt]
    simp only [Nat.ne_of_lt hlt, false_and, or_false]
  · rw [get_put_tail tail fb b hj]
    simp only [Nat.ne_of_lt hj, true_and, false_or]

/-- The pixels determine the framebuffer (R32). -/
theorem fb_eq_of_pixel_eq {fb fb' : Framebuffer}
    (h : ∀ j, j < pixelCount → (fb.pixel j = true ↔ fb'.pixel j = true)) : fb = fb' := by
  refine Vector.ext fun c hc => BitVec.eq_of_getLsbD_eq fun m hm => ?_
  have hbyte : (8 * c + (7 - m)) / 8 = c := by omega
  have hbit : 7 - (8 * c + (7 - m)) % 8 = m := by omega
  have hpix := h (8 * c + (7 - m)) (by simp only [fbBytes, pixelCount] at *; omega)
  rw [Framebuffer.pixel, Framebuffer.pixel, hbyte, hbit, get_of_lt _ _ hc, get_of_lt _ _ hc] at hpix
  exact Bool.eq_iff_iff.2 hpix

/-! ### What a write of the framebuffer leaves -/

theorem sameExcept_setFb (s : State) (fb : Framebuffer) :
    SameExcept (fun p => ∃ j, p = .fbByte j) s (s.setFb fb) := by
  intro p hp
  cases p with
  | fbByte j => exact absurd ⟨j, rfl⟩ hp
  | reg | index | pc | sp | slot | dt | st | memByte | cycles | status | draws => rfl

/-- A sprite writes VF and the framebuffer alone (R235). -/
theorem sameExcept_drawSprite (tail : FbTail) (s : State) (x y : RegIdx) (n : Nat) :
    SameExcept (fun p => p = .reg 15 ∨ ∃ j, p = .fbByte j) s (State.drawSprite tail s x y n) :=
  ((sameExcept_setFb s _).mono fun _ => .inr).trans ((sameExcept_setV _ 15 _).mono fun _ => .inl)

/-! ### The rows of a sprite (R235, R236) -/

section Rows

variable (tail : FbTail) (s : State) (x0 y0 : Byte)

theorem spriteOffset_lt (r : Nat) : spriteOffset x0 y0 r < pixelCount := Nat.mod_lt _ (by decide)

/-- A row lights pixels of at most eight offsets from its own, modulo the screen. -/
theorem rowLights_mod {at_ off : Nat} {src : Byte} (h : rowLights tail at_ src off) :
    ∃ k, k < 8 ∧ (at_ + k) % pixelCount = off % pixelCount := by
  obtain ⟨k, hk, -, hland | ⟨-, hland⟩⟩ := h
  · exact ⟨k, hk, by rw [hland]⟩
  · exact ⟨k, hk, by rw [hland, Nat.add_mod_right]⟩

variable {tail x0 y0} in
/-- No two rows of a sprite light the same pixel: they are 64 offsets apart, and a row spans eight
(R236). -/
theorem row_eq_of_rowLights {r r' off : Nat} {src src' : Byte} (hr : r < 32) (hr' : r' < 32)
    (h : rowLights tail (spriteOffset x0 y0 r) src off)
    (h' : rowLights tail (spriteOffset x0 y0 r') src' off) : r = r' := by
  obtain ⟨k, hk, hmod⟩ := rowLights_mod tail h
  obtain ⟨k', hk', hmod'⟩ := rowLights_mod tail h'
  simp only [spriteOffset, pixelCount] at hmod hmod'
  omega

/-- One more row of the sprite. -/
theorem spriteLights_succ (n off : Nat) :
    s.spriteLights tail x0 y0 (n + 1) off ↔
      s.spriteLights tail x0 y0 n off ∨ rowLights tail (spriteOffset x0 y0 n) (s.indexByte n) off :=
  Nat.exists_lt_succ_right

/-- The row after the first `n` lights no pixel that they light. -/
theorem not_spriteLights_of_rowLights {n off : Nat} {src : Byte} (hn : n < 32)
    (h : rowLights tail (spriteOffset x0 y0 n) src off) : ¬ s.spriteLights tail x0 y0 n off := by
  rintro ⟨r, hr, hlit⟩
  exact Nat.ne_of_lt hr (row_eq_of_rowLights (hr.trans hn) hn hlit h)

/-- The rows XOR the sprite's set bits into the pixels they land on (R235, R237). -/
theorem drawRows_pixel {n j : Nat} (hn : n ≤ 32) (hj : j < pixelCount) :
    (s.drawRows tail x0 y0 n).1.pixel j = true ↔
      ¬ (s.fb.pixel j = true ↔ s.spriteLights tail x0 y0 n j) := by
  induction n with
  | zero =>
    have hnone : ¬ s.spriteLights tail x0 y0 0 j := fun ⟨r, hr, _⟩ => Nat.not_lt_zero r hr
    simp only [State.drawRows, hnone, iff_false, not_not]
  | succ n ih =>
    have hapart := not_spriteLights_of_rowLights tail s x0 y0 (off := j) (src := s.indexByte n) hn
    rw [State.drawRows, drawRow_pixel _ _ _ (spriteOffset_lt x0 y0 n) hj, ih (Nat.le_of_succ_le hn),
      spriteLights_succ]
    tauto

/-- A pixel that the next row lights is, before that row, as it was before the sprite. -/
theorem drawRows_pixel_of_rowLights {n j : Nat} {src : Byte} (hn : n < 32) (hj : j < pixelCount)
    (h : rowLights tail (spriteOffset x0 y0 n) src j) :
    (s.drawRows tail x0 y0 n).1.pixel j = true ↔ s.fb.pixel j = true := by
  have hapart := not_spriteLights_of_rowLights tail s x0 y0 hn h
  rw [drawRows_pixel tail s x0 y0 hn.le hj]
  tauto

/-- Some row collides exactly when the sprite lights a pixel that was on before it (R235, R238). -/
theorem drawRows_collides {n : Nat} (hn : n ≤ 32) :
    (s.drawRows tail x0 y0 n).2 = true ↔
      ∃ j, j < pixelCount ∧ s.fb.pixel j = true ∧ s.spriteLights tail x0 y0 n j := by
  induction n with
  | zero =>
    constructor
    · exact fun h => nomatch h
    · rintro ⟨-, -, -, r, hr, -⟩
      exact absurd hr (Nat.not_lt_zero r)
  | succ n ih =>
    have hrow : (drawRow tail (s.drawRows tail x0 y0 n).1 (spriteOffset x0 y0 n)
          (s.indexByte n)).2 = true ↔ ∃ j, j < pixelCount ∧ s.fb.pixel j = true ∧
            rowLights tail (spriteOffset x0 y0 n) (s.indexByte n) j := by
      rw [drawRow_collides _ _ _ (spriteOffset_lt x0 y0 n)]
      refine exists_congr fun j => and_congr_right fun hj => and_congr_left fun hlit => ?_
      exact drawRows_pixel_of_rowLights tail s x0 y0 hn hj hlit
    simp only [State.drawRows, Bool.or_eq_true, ih (Nat.le_of_succ_le hn), hrow, spriteLights_succ,
      and_or_left, exists_or]

variable {s} in
/-- What a sprite lights depends on memory and `I` alone. -/
theorem spriteLights_congr {t : State} (hm : t.mem = s.mem) (hi : t.i = s.i) (n off : Nat) :
    t.spriteLights tail x0 y0 n off ↔ s.spriteLights tail x0 y0 n off := by
  simp only [State.spriteLights, indexByte_congr hm hi]

end Rows

/-! ### `drw` (R235, R240) -/

/-- The largest height of a sprite is below the number of screen rows. -/
theorem toNat_height_le (n : BitVec 4) : n.toNat ≤ 32 := n.isLt.le.trans (by decide)

/-- VF tells whether some pixel is both on and lit. -/
theorem flagByte_reports {c : Bool} {on lit : Nat → Prop}
    (h : c = true ↔ ∃ j, j < pixelCount ∧ on j ∧ lit j) :
    (flagByte c = 1 ∧ ∃ j, j < pixelCount ∧ on j ∧ lit j) ∨
      (flagByte c = 0 ∧ ∀ j, j < pixelCount → on j → ¬ lit j) := by
  cases c with
  | true => exact .inl ⟨rfl, h.1 rfl⟩
  | false => exact .inr ⟨rfl, fun j hj hon hlit => nomatch h.2 ⟨j, hj, hon, hlit⟩⟩

section Draw

variable (tail : FbTail) (s : State) (x y : RegIdx) (n : BitVec 4)

theorem drawSprite_pixel {j : Nat} (hj : j < pixelCount) :
    (State.drawSprite tail s x y n.toNat).fb.pixel j = true ↔
      ¬ (s.fb.pixel j = true ↔ s.spriteLights tail (s.getV x) (s.getV y) n.toNat j) :=
  drawRows_pixel tail s _ _ (toNat_height_le n) hj

theorem getV_drawSprite_flag (n : Nat) : (State.drawSprite tail s x y n).getV 15
    = flagByte (s.drawRows tail (s.getV x) (s.getV y) n).2 :=
  getV_setFlag_flagReg _ _

/-- VF after a sprite: whether it lit a pixel that was on (R235). -/
theorem drawSprite_flag_reports :
    ((State.drawSprite tail s x y n.toNat).getV 15 = 1 ∧ ∃ j, j < pixelCount ∧
        s.fb.pixel j = true ∧ s.spriteLights tail (s.getV x) (s.getV y) n.toNat j) ∨
      ((State.drawSprite tail s x y n.toNat).getV 15 = 0 ∧ ∀ j, j < pixelCount →
        s.fb.pixel j = true → ¬ s.spriteLights tail (s.getV x) (s.getV y) n.toNat j) := by
  rw [getV_drawSprite_flag]
  exact flagByte_reports (drawRows_collides tail s _ _ (toNat_height_le n))

end Draw

end Sys2Proof.Machine
end

section
/-! The statements of spec/45_display.md, settled from the rules above. -/

namespace Sys2Proof.Proofs

open Sys2Proof Sys2Proof.Machine

/-- Settles O58: each row XORs its bits, and no two rows meet, so the rows together XOR the sprite and
collide where it meets the framebuffer as it was. -/
theorem drawXorsTheSpriteAndReportsCollision : Obligations.DrawXorsTheSpriteAndReportsCollision :=
  fun x y n s => ⟨_, exec_drw s x y n, fun _ => rfl, fun _ => drawSprite_pixel _ s x y n,
    drawSprite_flag_reports _ s x y n, sameExcept_drawSprite _ s x y _⟩

/-- Settles O59: the second draw lights the same pixels, so it XORs back what the first XORed in, and
it meets a pixel that is on where the first found it off. -/
theorem drawingTwiceRestoresTheFramebuffer : Obligations.DrawingTwiceRestoresTheFramebuffer := by
  intro x y n s t t' h hfb hmem hi hx hy
  cases h
  have hlit : ∀ j, t'.spriteLights Config.startup.fbTail (t'.getV x) (t'.getV y) n.toNat j ↔
      s.spriteLights Config.startup.fbTail (s.getV x) (s.getV y) n.toNat j := by
    rw [hx, hy]
    exact spriteLights_congr _ _ _ hmem hi _
  have hfirst : ∀ j, j < pixelCount → (t'.fb.pixel j = true ↔ ¬ (s.fb.pixel j = true ↔
      s.spriteLights Config.startup.fbTail (s.getV x) (s.getV y) n.toNat j)) := fun j hj =>
    hfb ▸ drawSprite_pixel _ s x y n hj
  refine ⟨_, exec_drw t' x y n, fb_eq_of_pixel_eq fun j hj => ?restored, ?flag⟩
  case restored =>
    rw [drawSprite_pixel _ t' x y n hj, hlit, hfirst j hj]
    tauto
  case flag =>
    rw [getV_drawSprite_flag]
    refine flagByte_reports ((drawRows_collides _ t' _ _ (toNat_height_le n)).trans ?_)
    refine exists_congr fun j => and_congr_right fun hj => ?_
    rw [hlit, hfirst j hj, ← Bool.not_eq_true]
    tauto

/-- Settles O56: each byte operation is the rule's expression, term by term. -/
theorem rowByteOperationsAreTheRulesExpressions :
    Obligations.RowByteOperationsAreTheRulesExpressions :=
  fun hi lo new sh _ => ⟨toNat_rowWindow hi lo sh, toNat_rowFirst hi new sh, toNat_rowSecond lo new sh⟩

/-- Settles O60: the reads are the cases of the definition, and the write is one law for all 257
indexes. -/
theorem framebufferTailFollowsItsParameter : Obligations.FramebufferTailFollowsItsParameter :=
  fun fb b tail _ _ hj hk => ⟨get_of_lt tail fb hj, rfl, rfl, getElem_put tail fb b hj hk⟩

/-- Settles O55: the cleared framebuffer holds 0 in every byte, and it is the one part replaced. -/
theorem clearScreenClearsTheFramebufferOnly : Obligations.ClearScreenClearsTheFramebufferOnly :=
  fun s => ⟨_, exec_cls s, fun _ => Vector.getElem_replicate _, sameExcept_setFb s _⟩

/-- Settles O57: the XOR turns off exactly the set pixels under a set source bit. -/
theorem collisionIsASetBitOnASetPixel : Obligations.CollisionIsASetBitOnASetPixel := collides_xor

end Sys2Proof.Proofs
end

section
/-! Rules about the ends of a run that the statements of spec/60_exceptions.md rest on: the two
outcomes of a launch, and what a stop of the host leaves. -/

namespace Sys2Proof.Machine

variable {s : State}

/-- A launch answers a state or refuses the image; it has no third outcome (R262, R285). -/
theorem launch_ne_fault (img : List Byte) (f : Fault) : launch img ≠ .fault f := by
  unfold launch
  split
  next => exact nofun
  next => exact nofun

/-! ### A stop of the host (R270, D24) -/

theorem hostStop_of_running (hrun : s.status = .running) :
    hostStop s = { s with status := .stopped } := by
  simp only [hostStop, hrun]

/-- A run that has ended, by a fault or by a stop, is not stopped again (R35). -/
theorem hostStop_of_not_running (hrun : s.status ≠ .running) : hostStop s = s := by
  cases hstatus : s.status with
  | running => exact absurd hstatus hrun
  | faulted info => simp only [hostStop, hstatus]
  | stopped => simp only [hostStop, hstatus]

/-- A new status is seen in the status alone. -/
theorem sameExcept_with_status (s : State) (st : Status) :
    SameExcept (fun p => p = .status) s { s with status := st } := by
  intro p hp
  cases p with
  | status => exact absurd rfl hp
  | reg | index | pc | sp | slot | dt | st | fbByte | memByte | cycles | draws => rfl

end Sys2Proof.Machine
end

section
/-! The statements of spec/60_exceptions.md, settled from the rules above. -/

namespace Sys2Proof.Proofs

open Sys2Proof Sys2Proof.Machine

/-- Settles O27: a running machine's word is valid, and the step leaves it running, or invalid, and the
step leaves the fault recorded; a launch has no fault among its outcomes. -/
theorem nothingButAnInvalidWordFaults : Obligations.NothingButAnInvalidWordFaults := by
  refine ⟨fun s hrun => ?step, launch_ne_fault⟩
  cases hdec : decode s.fetchWord with
  | instr i =>
    obtain ⟨t, hstep, ht⟩ := step_running_of_instr hrun hdec
    exact ⟨t, hstep, nofun, fun _ => ht⟩
  | invalid => exact ⟨_, step_of_invalid hrun hdec, fun _ => rfl, fun hvalid => absurd rfl hvalid⟩

/-- Settles O32: the stop replaces the status of a running machine, and a stopped one has no step. -/
theorem hostStopEndsTheRun : Obligations.HostStopEndsTheRun := by
  refine ⟨fun s hrun => ?stop, fun _ => hostStop_of_not_running⟩
  rw [hostStop_of_running hrun]
  exact ⟨rfl, sameExcept_with_status s .stopped, step_of_stopped rfl⟩

end Sys2Proof.Proofs
end

section
/-! Rules about reset and launch that the statements of spec/70_reset_and_hazards.md rest on: the two
outcomes of a launch by the length of its image, what stands in memory after a load, and the invariant
of a state that differs from reset in memory alone. -/

namespace Sys2Proof.Machine

/-! ### The two outcomes of a launch (R283, R285) -/

theorem launch_of_length_le {img : List Byte} (h : img.length ≤ maxImage) :
    launch img = .next { State.reset with mem := Memory.load [] loadAddr img } :=
  if_pos h

theorem launch_of_lt_length {img : List Byte} (h : maxImage < img.length) :
    launch img = .refused (.imageTooLong img.length) :=
  if_neg (Nat.not_le_of_lt h)

/-! ### Memory after a load (R283) -/

section Load

variable {m : Memory} {a : Nat} {bs : List Byte}

theorem read_load_add (hm : m.wf = true) (ha : a + bs.length ≤ memSize) {k : Nat}
    (hk : k < bs.length) : (m.load a bs).read (a + k) = bs[k] := by
  rw [read_load hm ha, dif_pos (by omega)]
  simp only [Nat.add_sub_cancel_left]

theorem read_load_of_outside (hm : m.wf = true) (ha : a + bs.length ≤ memSize) {c : Nat}
    (hc : c < a ∨ a + bs.length ≤ c) : (m.load a bs).read c = m.read c := by
  rw [read_load hm ha, dif_neg (by omega)]

end Load

/-- An image that is not refused ends inside the address space (R285). -/
theorem loadAddr_add_length_le {img : List Byte} (h : img.length ≤ maxImage) :
    loadAddr + img.length ≤ memSize :=
  Nat.add_le_of_le_sub' (by decide) h

/-- A new memory is seen in the bytes of memory alone. -/
theorem sameExcept_with_mem (s : State) (m : Memory) :
    SameExcept (fun p => ∃ a, p = .memByte a) s { s with mem := m } := by
  intro p hp
  cases p with
  | memByte a => exact absurd ⟨a, rfl⟩ hp
  | reg | index | pc | sp | slot | dt | st | fbByte | cycles | status | draws => rfl

/-! ### The first fetch and the invariant -/

/-- The word fetched at the load address: its two bytes need no masking (R103, R281). -/
theorem toNat_fetchWord_of_pc_eq {s : State} (hpc : s.pc = 0x0200) : s.fetchWord.toNat =
    256 * (s.mem.read 0x200).toNat + (s.mem.read 0x201).toNat := by
  rw [toNat_fetchWord, hpc]
  rfl

/-- The reset state with any canonical memory that leaves the reserved range 0 meets the invariant:
`ST` is 0, and no fault is recorded (R280, R52, R31). -/
theorem inv_reset_with_mem {m : Memory} (hm : m.wf = true)
    (hreserved : ∀ a, a < loadAddr → m.read a = 0) : State.Inv { State.reset with mem := m } where
  mem_wf := hm
  reserved_zero := hreserved
  sound_zero := rfl
  fault_true := nofun

end Sys2Proof.Machine
end

section
/-! The statements of spec/70_reset_and_hazards.md, settled from the rules above. -/

namespace Sys2Proof.Proofs

open Sys2Proof Sys2Proof.Machine

/-- Settles O11: the image is read back where it was loaded, the load leaves every other byte of the
empty memory, and no step writes memory. -/
theorem launchLoadsTheImageVerbatim : Obligations.LaunchLoadsTheImageVerbatim := by
  refine ⟨fun img hlen => ?launch, fun _ _ => step_mem⟩
  have hfits := loadAddr_add_length_le hlen
  exact ⟨_, launch_of_length_le hlen, fun _ hk => read_load_add rfl hfits hk,
    fun _ ha => read_load_of_outside rfl hfits ha, sameExcept_with_mem State.reset _⟩

/-- Settles O12: a launch that answers has loaded a fitting image above the reserved range of the reset
state, and one that does not fit is refused. -/
theorem launchEntersAtTheLoadAddressOrRefuses :
    Obligations.LaunchEntersAtTheLoadAddressOrRefuses := by
  refine ⟨fun img t h => ?enters, fun _ => launch_of_lt_length⟩
  obtain ⟨hlen, rfl⟩ := launch_next_cases h
  have hfits := loadAddr_add_length_le hlen
  exact ⟨rfl, rfl, toNat_fetchWord_of_pc_eq rfl,
    inv_reset_with_mem (wf_load rfl hfits) fun _ ha => read_load_of_outside rfl hfits (.inl ha)⟩

/-- Settles O10: the registers, the stack and the framebuffer are vectors filled with 0, memory lists
no byte, and every other part is the field reset gives it. -/
theorem resetStateIsZeroExceptPcAndStatus : Obligations.ResetStateIsZeroExceptPcAndStatus := by
  intro p hp
  cases p with
  | draws => exact absurd rfl hp
  | reg | fbByte => exact congrArg PartValue.byte (Vector.getElem_replicate _)
  | slot => exact congrArg PartValue.word (Vector.getElem_replicate _)
  | index | pc | sp | dt | st | memByte | cycles | status => rfl

/-- Settles O30: empty memory is canonical and reads 0 everywhere. -/
theorem invariantHoldsAtReset : Obligations.InvariantHoldsAtReset :=
  inv_reset_with_mem rfl fun _ _ => rfl

end Sys2Proof.Proofs
end
